-- ==== Sys2Proof/Word.lean ====
section
/-! DEFINITION. The bit-vector types of ABA-16: one register pattern, one instruction word, one byte. -/

namespace Sys2Proof

/-- The two's complement pattern of one general register, `REGW` = 12 bits (10_state.md R11). -/
abbrev Word := BitVec 12

/-- One instruction word, `IW` = 16 bits (30_encoding.md R45). -/
abbrev InstrWord := BitVec 16

/-- One byte of the program store as a byte-wide memory holds it (20_memory.md R32). -/
abbrev Byte := BitVec 8

end Sys2Proof
end

