-- ==== Sys2Proof/Config.lean ====
section
/-! DEFINITION. What is fixed for the hardware (00_scope.md R4, R5) and is no state. The opcode and funct tables,
also configuration, stand in Decode.lean beside the decoder that reads them. -/

namespace Sys2Proof

/-- `REGW`, the width of a register (00_scope.md R5, decision D3); notes/assumptions/6.md. -/
abbrev Config.regw : Nat := 12

/-- `NCYC` = W/2, the number of add-and-shift cycles of the multiplier (00_scope.md R4). -/
abbrev Config.boothCycles : Nat := 3

/-- `RESET_REGS`, the pattern every register holds after reset (10_state.md R22, decision D4). -/
abbrev Config.resetReg : Word := 0#12

/-- What an unlisted byte of the program store reads as. DESIGN CHOICE, unsafe: notes/assumptions/3.md. -/
abbrev Config.unlistedByte : Byte := 0#8

end Sys2Proof
end

