-- ==== Sys2Proof/Syntax.lean ====
section
/-! DEFINITION. The syntax of ABA-16: the eight registers, the ten mnemonics, the ten instructions. -/

namespace Sys2Proof

/-- The eight general registers, index 0 to 7 in this order (10_state.md R10). -/
inductive Reg where
  | s0 | r1 | r2 | r3 | r4 | r5 | r6 | r7
deriving DecidableEq, Repr

/-- All registers, in index order. -/
def Reg.all : List Reg := [.s0, .r1, .r2, .r3, .r4, .r5, .r6, .r7]

/-- The mnemonics of the funct table `FN` (30_encoding.md R52). -/
inductive RName where
  | add | sub | sll | bth
deriving DecidableEq, Repr

/-- All mnemonics of the funct table. -/
def RName.all : List RName := [.add, .sub, .sll, .bth]

/-- The mnemonics of the opcode table `OPC` (30_encoding.md R51). -/
inductive IName where
  | lui | ori | lw | sw | andi | addi
deriving DecidableEq, Repr

/-- All mnemonics of the opcode table. -/
def IName.all : List IName := [.lui, .ori, .lw, .sw, .andi, .addi]

/-- The ten machine instructions (00_scope.md R1), with every field of their words in the order of the word
(30_encoding.md R46, R47). `immed` is the unsigned number the hardware uses (R54); WellFormed.lean checks its range.
An I-type instruction keeps the field `rs` that the hardware ignores (R55), so that its word can be recovered. -/
inductive Instr where
  /-- R71 -/
  | add (rs rt rd : Reg)
  /-- R72 -/
  | sub (rs rt rd : Reg)
  /-- R73 -/
  | sll (rs rt rd : Reg)
  /-- R90 -/
  | bth (rs rt rd : Reg)
  /-- R81 -/
  | lui (rs rt : Reg) (immed : Nat)
  /-- R82 -/
  | ori (rs rt : Reg) (immed : Nat)
  /-- R83 -/
  | lw (rs rt : Reg) (immed : Nat)
  /-- R84 -/
  | sw (rs rt : Reg) (immed : Nat)
  /-- R85 -/
  | andi (rs rt : Reg) (immed : Nat)
  /-- R86 -/
  | addi (rs rt : Reg) (immed : Nat)
deriving DecidableEq, Repr

/-- The R-type instruction of a mnemonic of `FN`: the reverse look-up's result (30_encoding.md R49). -/
def Instr.ofR (m : RName) (rs rt rd : Reg) : Instr :=
  match m with
  | .add => .add rs rt rd
  | .sub => .sub rs rt rd
  | .sll => .sll rs rt rd
  | .bth => .bth rs rt rd

/-- The I-type instruction of a mnemonic of `OPC` (30_encoding.md R49). -/
def Instr.ofI (m : IName) (rs rt : Reg) (immed : Nat) : Instr :=
  match m with
  | .lui => .lui rs rt immed
  | .ori => .ori rs rt immed
  | .lw => .lw rs rt immed
  | .sw => .sw rs rt immed
  | .andi => .andi rs rt immed
  | .addi => .addi rs rt immed

end Sys2Proof
end

