-- ==== Sys2Proof/WellFormed.lean ====
section
/-! DEFINITION. Which instructions have a word: the one check is that an immediate fits its six bits. -/

namespace Sys2Proof

/-- "used as the unsigned number `immed` in `[0, 63]`" (30_encoding.md R54, 42_itype.md R80). -/
def immedInRange (immed : Nat) : Bool := decide (immed < 64)

/-- An instruction that some 16-bit word spells. Register fields cannot be out of range (10_state.md R10). -/
def Instr.wellFormed : Instr → Bool
  | .add _ _ _ => true
  | .sub _ _ _ => true
  | .sll _ _ _ => true
  | .bth _ _ _ => true
  | .lui _ _ immed => immedInRange immed
  | .ori _ _ immed => immedInRange immed
  | .lw _ _ immed => immedInRange immed
  | .sw _ _ immed => immedInRange immed
  | .andi _ _ immed => immedInRange immed
  | .addi _ _ immed => immedInRange immed

end Sys2Proof
end

