-- ==== Sys2Proof/Decode.lean ====
section
/-! DEFINITION. The codec of 30_encoding.md: field extraction, the two tables, the decoder, the encoder, and the
packing of a word into bytes. The tables are an argument (R51, R52: "a configuration table"); the machine uses
`specTables`, the numbers the spec decided (D1, D2). -/

namespace Sys2Proof

/-- The three bits of a register index field (10_state.md R10). -/
def Reg.bits : Reg → BitVec 3
  | .s0 => 0#3
  | .r1 => 1#3
  | .r2 => 2#3
  | .r3 => 3#3
  | .r4 => 4#3
  | .r5 => 5#3
  | .r6 => 6#3
  | .r7 => 7#3

/-- The register of a 3-bit index field: every index has one (10_state.md R10, 30_encoding.md R53). -/
def Reg.ofBits (b : BitVec 3) : Reg :=
  match b.toNat with
  | 0 => .s0
  | 1 => .r1
  | 2 => .r2
  | 3 => .r3
  | 4 => .r4
  | 5 => .r5
  | 6 => .r6
  | _ => .r7

/-- The fields of a word. `rd` and `funct` have a meaning when `opcode` is 0, `immed` when it is not
(30_encoding.md R48, R49). -/
structure Fields where
  opcode : BitVec 4
  rs : BitVec 3
  rt : BitVec 3
  rd : BitVec 3
  funct : BitVec 3
  immed : BitVec 6
deriving DecidableEq, Repr

/-- `unpack(w)` of 30_encoding.md R49, total on all words. -/
def unpack (w : InstrWord) : Fields where
  opcode := w.extractLsb' 12 4
  rs := w.extractLsb' 9 3
  rt := w.extractLsb' 6 3
  rd := w.extractLsb' 3 3
  funct := w.extractLsb' 0 3
  immed := w.extractLsb' 0 6

/-- `packR(rs, rt, rd, funct)` of 30_encoding.md R50. -/
def packR (rs rt rd funct : BitVec 3) : InstrWord := 0b0000#4 ++ rs ++ rt ++ rd ++ funct

/-- `packI(opcode, rs, rt, immed)` of 30_encoding.md R50. -/
def packI (opcode : BitVec 4) (rs rt : BitVec 3) (immed : BitVec 6) : InstrWord := opcode ++ rs ++ rt ++ immed

/-- The configuration tables `OPC` and `FN` (30_encoding.md R51, R52). -/
structure Tables where
  opc : IName → BitVec 4
  fn : RName → BitVec 3

/-- The constraint on the tables: injective maps, and no I-type opcode is 0 (30_encoding.md R51, R52). -/
def Tables.Valid (T : Tables) : Prop :=
  (∀ m n, T.opc m = T.opc n → m = n) ∧ (∀ m, T.opc m ≠ 0#4) ∧ (∀ m n, T.fn m = T.fn n → m = n)

/-- The numeric opcodes of 30_encoding.md R51 (decision D1). -/
def specOpc : IName → BitVec 4
  | .lui => 1#4
  | .ori => 2#4
  | .lw => 3#4
  | .sw => 4#4
  | .andi => 5#4
  | .addi => 6#4

/-- The numeric functs of 30_encoding.md R52 (decision D2). -/
def specFn : RName → BitVec 3
  | .add => 0#3
  | .sub => 1#3
  | .sll => 2#3
  | .bth => 3#3

/-- The tables of this hardware. -/
def specTables : Tables := ⟨specOpc, specFn⟩

/-- Reverse look-up in the opcode table; `none` is an opcode outside `dom(OPC)` (30_encoding.md R49). -/
def Tables.iName (T : Tables) (opcode : BitVec 4) : Option IName := IName.all.find? fun m => T.opc m == opcode

/-- Reverse look-up in the funct table; `none` is a funct outside `dom(FN)` (30_encoding.md R49). -/
def Tables.rName (T : Tables) (funct : BitVec 3) : Option RName := RName.all.find? fun m => T.fn m == funct

/-- `Invalid(...)`: why a word spells no instruction (30_encoding.md R49). -/
inductive DecodeError where
  /-- the opcode is not 0 and not in the opcode table (60_exceptions.md R111) -/
  | unknownOpcode
  /-- the opcode is 0 and the funct is not in the funct table (60_exceptions.md R112) -/
  | unknownFunct
deriving DecidableEq, Repr

/-- `decode(w)` of 30_encoding.md R49 under given tables: the opcode first, the funct only when the opcode is 0
(40_executor_dispatch.md R66). -/
def decodeWith (T : Tables) (w : InstrWord) : Except DecodeError Instr :=
  let f := unpack w
  if f.opcode = 0#4 then
    match T.rName f.funct with
    | some m => .ok (Instr.ofR m (Reg.ofBits f.rs) (Reg.ofBits f.rt) (Reg.ofBits f.rd))
    | none => .error .unknownFunct
  else
    match T.iName f.opcode with
    | some m => .ok (Instr.ofI m (Reg.ofBits f.rs) (Reg.ofBits f.rt) f.immed.toNat)
    | none => .error .unknownOpcode

/-- The decoder of this hardware. -/
def decode (w : InstrWord) : Except DecodeError Instr := decodeWith specTables w

/-- The word of an R-type instruction under given tables (30_encoding.md R50). -/
def encodeR (T : Tables) (m : RName) (rs rt rd : Reg) : InstrWord := packR rs.bits rt.bits rd.bits (T.fn m)

/-- The word of an I-type instruction under given tables (30_encoding.md R50). -/
def encodeI (T : Tables) (m : IName) (rs rt : Reg) (immed : Nat) : InstrWord :=
  packI (T.opc m) rs.bits rt.bits (BitVec.ofNat 6 immed)

/-- The document's `encode` (30_encoding.md R50) under given tables. -/
def encodeWith (T : Tables) : Instr → InstrWord
  | .add rs rt rd => encodeR T .add rs rt rd
  | .sub rs rt rd => encodeR T .sub rs rt rd
  | .sll rs rt rd => encodeR T .sll rs rt rd
  | .bth rs rt rd => encodeR T .bth rs rt rd
  | .lui rs rt immed => encodeI T .lui rs rt immed
  | .ori rs rt immed => encodeI T .ori rs rt immed
  | .lw rs rt immed => encodeI T .lw rs rt immed
  | .sw rs rt immed => encodeI T .sw rs rt immed
  | .andi rs rt immed => encodeI T .andi rs rt immed
  | .addi rs rt immed => encodeI T .addi rs rt immed

/-- The encoder of this hardware. -/
def encode (i : Instr) : InstrWord := encodeWith specTables i

/-- The word two bytes spell, the first byte the one at the lower address: the more significant one
(20_memory.md R32, D21). -/
def wordOfBytes (first second : Byte) : InstrWord := first ++ second

/-- The byte of a word at the lower address: `w[15:8]` (20_memory.md R32). -/
def firstByte (w : InstrWord) : Byte := w.extractLsb' 8 8

/-- The byte of a word at the higher address: `w[7:0]` (20_memory.md R32). -/
def secondByte (w : InstrWord) : Byte := w.extractLsb' 0 8

/-- The word of a row of spec/opcode_table.json: the low `nbits` bits of `w`, every bit above them 0. -/
def tableWord (nbits w : Nat) : InstrWord := BitVec.ofNat 16 (w % 2 ^ nbits)

/-- What the decoder reads from the table word `w`, laid out as bytes as the hardware's platform stores them. -/
def decodeTableWord (nbits w : Nat) : Option Instr :=
  let v := tableWord nbits w
  match decode (wordOfBytes (firstByte v) (secondByte v)) with
  | .ok i => some i
  | .error _ => none

end Sys2Proof
end

