-- ==== Sys2Proof/Machine/State.lean ====
section
/-! DEFINITION. The state of ABA-16 as plain data: `(x[0..7], pc, st)` (10_state.md) and the program store of the run. -/

namespace Sys2Proof.Machine

/-- The register file: eight registers, each its two's complement pattern (10_state.md R10, R11). `s0` is an ordinary
register (R12). -/
structure RegFile where
  s0 : Word
  r1 : Word
  r2 : Word
  r3 : Word
  r4 : Word
  r5 : Word
  r6 : Word
  r7 : Word
deriving DecidableEq, Repr

/-- The four fault causes (60_exceptions.md R110). -/
inductive Cause where
  | unknownOpcode
  | unknownFunct
  | reservedOpcode
  | shiftCountNegative
deriving DecidableEq, Repr

/-- The cause codes `CAUSE`, labels only (60_exceptions.md R110, D20). -/
def Cause.code : Cause → Nat
  | .unknownOpcode => 1
  | .unknownFunct => 2
  | .reservedOpcode => 3
  | .shiftCountNegative => 4

/-- The status `st`: `RUN`, or `FAULT(cause, index, word)` (10_state.md R17). -/
inductive Status where
  | run
  | fault (cause : Cause) (index : Nat) (word : InstrWord)
deriving DecidableEq, Repr

/-- The program store as bytes: address and byte, the more significant byte of word `i` at address `2 * i`, the other at
`2 * i + 1` (20_memory.md R32; notes/assumptions/1.md, 2.md). Canonical form: Ops.lean's `Memory.wf`. -/
abbrev Memory := List Host.Cell

/-- The machine. `regs`, `pc` and `st` are the spec's architectural state (10_state.md); `progLen` is `N` and `mem` holds
`Prog[0..N-1]`, the parameters of a run (R20), here so that a step is a function of the state. -/
structure State where
  regs : RegFile
  pc : Nat
  st : Status
  progLen : Nat
  mem : Memory
deriving DecidableEq, Repr

/-- Why no step is enabled (40_executor_dispatch.md R65). The four faults of 60_exceptions.md are no constructors here:
they are next states, whose `st` is a `FAULT`. -/
inductive Fault where
  /-- `st` is a `FAULT`: only reset leaves it (60_exceptions.md R120). Raised by `step` alone. Safe: the hardware does
  nothing either. -/
  | halted
  /-- `Done`: `st = RUN` and `pc = N` (40_executor_dispatch.md R67). Raised by `step` alone. Safe: the hardware does
  nothing either. -/
  | programDone
  /-- `pc` lies beyond `N`, which 10_state.md R14 excludes. Raised by `step` alone, in no state a run reaches. Safe. -/
  | pcBeyondProgram
deriving DecidableEq, Repr

/-- Why the model gives no answer. -/
inductive Refusal where
  /-- `exec` has no meaning for the instruction yet. Raised by an arm of `exec`; no arm does. Safe. -/
  | notModelled (mnemonic : String)
deriving DecidableEq, Repr

/-- The register file after reset, `RESET_REGS` (10_state.md R22). -/
def RegFile.reset : RegFile :=
  ⟨Config.resetReg, Config.resetReg, Config.resetReg, Config.resetReg, Config.resetReg, Config.resetReg,
    Config.resetReg, Config.resetReg⟩

/-- The machine right after reset (10_state.md R22), with no program loaded: `N` = 0 and nothing listed
(notes/assumptions/5.md). -/
def State.reset : State where
  regs := RegFile.reset
  pc := 0
  st := .run
  progLen := 0
  mem := []

end Sys2Proof.Machine
end

