-- ==== Sys2Proof/Machine/Flags.lean ====
section
/-! DEFINITION. ABA-16 has no status flags, condition codes or predicates, and no instruction records carry, overflow, zero
or sign (10_state.md R16); the carry out of the multiplier's adder is dropped (43_booth_multiplier.md R96). So this file,
where the flag computations of a machine stand, defines nothing. -/
end

