-- ==== Sys2Proof/Machine/Operands.lean ====
section
/-! DEFINITION. The notation of 00_scope.md R8 over integers, and the operand forms: the register file's read and write
of one pattern, the multiplier's six-bit operand, the shift. -/

namespace Sys2Proof.Machine

/-- `u_n(v)` as the pattern it spells (00_scope.md R8). -/
def uBits (n : Nat) (v : Int) : BitVec n := BitVec.ofInt n v

/-- `s_n(p)`, the signed reading of a pattern (00_scope.md R8). -/
def sRead {n : Nat} (p : BitVec n) : Int := p.toInt

/-- `wrap(v)` (00_scope.md R8). -/
def wrap (v : Int) : Int := sRead (uBits Config.regw v)

/-- `a | b` on integers (00_scope.md R8): the OR of the `REGW`-bit patterns, read back as signed. -/
def orInt (a b : Int) : Int := sRead (uBits Config.regw a ||| uBits Config.regw b)

/-- `v[5:0]` of a register value: its low six bits (00_scope.md R8; 43_booth_multiplier.md R92). -/
def low6 (v : Int) : BitVec 6 := uBits 6 v

/-- `wrap(v * 2^n)` (41_rtype_alu.md R73): a count of `REGW` or more gives 0, and the power is not built then. -/
def shiftLeftWrap (v : Int) (n : Nat) : Int := if n < Config.regw then wrap (v * 2 ^ n) else 0

/-- The pattern register `r` holds. -/
def RegFile.get (f : RegFile) : Reg → Word
  | .s0 => f.s0
  | .r1 => f.r1
  | .r2 => f.r2
  | .r3 => f.r3
  | .r4 => f.r4
  | .r5 => f.r5
  | .r6 => f.r6
  | .r7 => f.r7

/-- The register file with pattern `p` in register `r`, every other register as before. -/
def RegFile.set (f : RegFile) (r : Reg) (p : Word) : RegFile :=
  match r with
  | .s0 => { f with s0 := p }
  | .r1 => { f with r1 := p }
  | .r2 => { f with r2 := p }
  | .r3 => { f with r3 := p }
  | .r4 => { f with r4 := p }
  | .r5 => { f with r5 := p }
  | .r6 => { f with r6 := p }
  | .r7 => { f with r7 := p }

end Sys2Proof.Machine
end

