-- ==== Sys2Proof/Machine/Ops.lean ====
section
/-! DEFINITION. The named operations over registers, `pc`, `st` and the program store; taking a fault; reset; what a host
loads and observes. -/

namespace Sys2Proof.Machine

/-! ### Registers and `pc` -/

/-- `x[r]`, the signed value of a register (00_scope.md R8). -/
def readReg (s : State) (r : Reg) : Int := sRead (s.regs.get r)

/-- `x[r] <- wrap(v)`: the register takes the `REGW`-bit pattern of `v` (10_state.md R11). -/
def writeReg (r : Reg) (v : Int) (s : State) : State := { s with regs := s.regs.set r (uBits Config.regw v) }

/-- `pc <- pc + 1` (10_state.md R15). -/
def advance (s : State) : State := { s with pc := s.pc + 1 }

/-- How every instruction that does not fault ends: one register written and `pc` advanced (10_state.md R13, R15). -/
def writeAndAdvance (r : Reg) (v : Int) (s : State) : State := advance (writeReg r v s)

/-! ### Faults and reset -/

/-- `raise F(cause)` on word `w` (60_exceptions.md R113): `st` records the cause, `pc` and the word; nothing else changes. -/
def takeFault (cause : Cause) (w : InstrWord) (s : State) : State := { s with st := .fault cause s.pc w }

/-- The fault of an instruction: the word recorded is the instruction's own (notes/assumptions/8.md). -/
def raiseFault (cause : Cause) (i : Instr) (s : State) : State := takeFault cause (encode i) s

/-- The cause an undecodable word faults with (40_executor_dispatch.md R65). -/
def causeOfDecodeError : DecodeError → Cause
  | .unknownOpcode => .unknownOpcode
  | .unknownFunct => .unknownFunct

/-- The reset event (70_reset_and_hazards.md R130): registers, `pc` and `st` at their reset values, the program store
kept. It is the only way out of a `FAULT` (60_exceptions.md R120). -/
def resetEvent (s : State) : State := { s with regs := RegFile.reset, pc := 0, st := .run }

/-! ### The program store -/

/-- The byte at an address: an unlisted address reads as `Config.unlistedByte`. -/
def Memory.read : Memory → Nat → Byte
  | [], _ => Config.unlistedByte
  | (k, x) :: m, a => if k = a then x else Memory.read m a

/-- Put a cell in front, unless it says what an unlisted address says. -/
def Memory.consCell (a : Nat) (v : Byte) (m : Memory) : Memory := if v = Config.unlistedByte then m else (a, v) :: m

/-- Write one byte, keeping the canonical form. No instruction does this: only the load of a program (20_memory.md R40). -/
def Memory.write : Memory → Nat → Byte → Memory
  | [], a, v => Memory.consCell a v []
  | (k, x) :: m, a, v =>
    if a < k then Memory.consCell a v ((k, x) :: m)
    else if a = k then Memory.consCell a v m
    else (k, x) :: Memory.write m a v

/-- The canonical form: addresses strictly rising, and no entry equal to what an unlisted address reads as. -/
def Memory.wf : Memory → Bool
  | [] => true
  | (k, x) :: m => decide (x ≠ Config.unlistedByte) && m.all (fun c => decide (k < c.1)) && Memory.wf m

/-- `Prog[i]`, both bytes at once (20_memory.md R31, R32). -/
def Memory.readWord (m : Memory) (i : Nat) : InstrWord := wordOfBytes (m.read (2 * i)) (m.read (2 * i + 1))

/-- Place a word at index `i`: a host action. -/
def Memory.writeWord (m : Memory) (i : Nat) (w : InstrWord) : Memory :=
  (m.write (2 * i) (firstByte w)).write (2 * i + 1) (secondByte w)

/-- Place words at indices `i`, `i + 1`, …: a host action. -/
def Memory.writeWords (m : Memory) (i : Nat) : List InstrWord → Memory
  | [] => m
  | w :: ws => Memory.writeWords (m.writeWord i w) (i + 1) ws

/-- Instruction fetch, `Prog[pc]` (20_memory.md R31). -/
def fetch (s : State) : InstrWord := s.mem.readWord s.pc

/-- The machine with the program `ws` in its store, right after reset (70_reset_and_hazards.md R132: the complete program
before reset is released). `N` is the number of words. -/
def loadProgram (ws : List InstrWord) : State :=
  { State.reset with progLen := ws.length, mem := Memory.writeWords [] 0 ws }

/-- The machine with word `w` at `Prog[pc]` and a step enabled there (notes/assumptions/5.md). -/
def placeFetchWord (w : InstrWord) (s : State) : State :=
  { s with st := .run, progLen := max s.progLen (s.pc + 1), mem := s.mem.writeWord s.pc w }

/-! ### What a host observes (10_state.md R23, R24) -/

/-- The derived bit `done`: `st = RUN` and `pc = N` (40_executor_dispatch.md R67). -/
def isDone (s : State) : Bool := decide (s.st = .run) && decide (s.pc = s.progLen)

/-- The derived bit `faulted`: `st` is a `FAULT`. -/
def isFaulted (s : State) : Bool :=
  match s.st with
  | .run => false
  | .fault _ _ _ => true

/-- Register and status observation, both interfaces of 10_state.md R23 together (notes/assumptions/16.md). -/
structure Observation where
  registers : List Word
  st : Status
  pc : Nat
  done : Bool
  faulted : Bool
deriving DecidableEq, Repr

/-- What the host reads. `st` and `pc` are readable at any time, the registers when `Done` or in a `FAULT`, and they are the
program's result only when `done` (10_state.md R24). DESIGN CHOICE: the spec leaves open whether the registers can be read
in `RUN` before `Done`, and here they can (notes/assumptions/16.md). -/
def observe (s : State) : Observation :=
  ⟨Reg.all.map s.regs.get, s.st, s.pc, isDone s, isFaulted s⟩

end Sys2Proof.Machine
end

