-- ==== Sys2Proof/Machine/Booth.lean ====
section
/-! DEFINITION. The Booth radix-4 multiplier and `bth` (43_booth_multiplier.md). -/

namespace Sys2Proof.Machine

/-- Step 1: `A = sext_12(a) ++ 0b0` (R93). -/
def boothInit (a : BitVec 6) : BitVec 13 := a.signExtend 12 ++ 0b0#1

/-- The four addends (R94). -/
structure Addends where
  B : BitVec 13
  B2 : BitVec 13
  negB : BitVec 13
  negB2 : BitVec 13
deriving DecidableEq, Repr

/-- `u_13(2^13 - v)` (R94). -/
def neg13 (v : BitVec 13) : BitVec 13 := BitVec.ofNat 13 (2 ^ 13 - v.toNat)

/-- Step 2: `B` is `b` then seven zeros, `B2` is `c[4:0]` then eight zeros (R94). -/
def boothAddends (b c : BitVec 6) : Addends where
  B := b ++ 0#7
  B2 := c.extractLsb' 0 5 ++ 0#8
  negB := neg13 (b ++ 0#7)
  negB2 := neg13 (c.extractLsb' 0 5 ++ 0#8)

/-- Step 3a, the recoding table (R95). -/
def selectAddend (d : Addends) (t : BitVec 3) : BitVec 13 :=
  match t.toNat with
  | 0b000 => 0#13
  | 0b001 => d.B
  | 0b010 => d.B
  | 0b011 => d.B2
  | 0b100 => d.negB2
  | 0b101 => d.negB
  | 0b110 => d.negB
  | _ => 0#13

/-- `asr2_13(S) = S[12] ++ S[12] ++ S[12:2]` (00_scope.md R8). -/
def asr2 (S : BitVec 13) : BitVec 13 := S.extractLsb' 12 1 ++ S.extractLsb' 12 1 ++ S.extractLsb' 2 11

/-- Steps 3b to 3d, one cycle: the sum is kept to 13 bits before the shift (R96). -/
def boothCycle (d : Addends) (A : BitVec 13) : BitVec 13 := asr2 (A + selectAddend d (A.extractLsb' 0 3))

/-- `n` cycles. -/
def boothRun (d : Addends) : Nat → BitVec 13 → BitVec 13
  | 0, A => A
  | n + 1, A => boothRun d n (boothCycle d A)

/-- `BoothMul(a, b, c)` (R91): three cycles, then `A[12:1]` (R97). -/
def boothMul (a b c : BitVec 6) : BitVec 12 :=
  (boothRun (boothAddends b c) Config.boothCycles (boothInit a)).extractLsb' 1 12

/-- `bth $rd $rs $rt`: `x[rd] <- s_12(BoothMul(x[rs][5:0], x[rt][5:0], x[3][5:0]))`, all three registers read before the
write (R90, R92, R98, R99). -/
def execBth (rs rt rd : Reg) (s : State) : Host.Outcome State Fault Refusal :=
  .next (writeAndAdvance rd (sRead (boothMul (low6 (readReg s rs)) (low6 (readReg s rt)) (low6 (readReg s .r3)))) s)

end Sys2Proof.Machine
end

