-- ==== Sys2Proof/Machine/IType.lean ====
section
/-! DEFINITION. `lui`, `ori` and the reserved `lw`, `sw`, `andi`, `addi` (42_itype.md). -/

namespace Sys2Proof.Machine

/-- `lui $rt imm`: `x[rt] <- immed`, no shift (R81). The field `rs` is not read (30_encoding.md R55). -/
def execLui (rt : Reg) (immed : Nat) (s : State) : Host.Outcome State Fault Refusal :=
  .next (writeAndAdvance rt (immed : Int) s)

/-- `ori $rt imm`: `x[rt] <- x[rt] | immed` (R82). The field `rs` is not read (30_encoding.md R55). -/
def execOri (rt : Reg) (immed : Nat) (s : State) : Host.Outcome State Fault Refusal :=
  .next (writeAndAdvance rt (orInt (readReg s rt) (immed : Int)) s)

/-- `lw`: takes the fault `RESERVED_OPCODE`, always (R83, 60_exceptions.md R114). -/
def execLw (rs rt : Reg) (immed : Nat) (s : State) : Host.Outcome State Fault Refusal :=
  .next (raiseFault .reservedOpcode (.lw rs rt immed) s)

/-- `sw`: takes the fault `RESERVED_OPCODE`, always (R84, 60_exceptions.md R114). -/
def execSw (rs rt : Reg) (immed : Nat) (s : State) : Host.Outcome State Fault Refusal :=
  .next (raiseFault .reservedOpcode (.sw rs rt immed) s)

/-- `andi`: takes the fault `RESERVED_OPCODE`, always (R85, 60_exceptions.md R114). -/
def execAndi (rs rt : Reg) (immed : Nat) (s : State) : Host.Outcome State Fault Refusal :=
  .next (raiseFault .reservedOpcode (.andi rs rt immed) s)

/-- `addi`: takes the fault `RESERVED_OPCODE`, always (R86, 60_exceptions.md R114). -/
def execAddi (rs rt : Reg) (immed : Nat) (s : State) : Host.Outcome State Fault Refusal :=
  .next (raiseFault .reservedOpcode (.addi rs rt immed) s)

end Sys2Proof.Machine
end

