-- ==== Sys2Proof/Machine/RType.lean ====
section
/-! DEFINITION. `add`, `sub`, `sll` (41_rtype_alu.md). -/

namespace Sys2Proof.Machine

/-- `add $rd $rs $rt`: `x[rd] <- wrap(x[rs] + x[rt])` (R71). -/
def execAdd (rs rt rd : Reg) (s : State) : Host.Outcome State Fault Refusal :=
  .next (writeAndAdvance rd (readReg s rs + readReg s rt) s)

/-- `sub $rd $rs $rt`: `x[rd] <- wrap(x[rs] - x[rt])` (R72). -/
def execSub (rs rt rd : Reg) (s : State) : Host.Outcome State Fault Refusal :=
  .next (writeAndAdvance rd (readReg s rs - readReg s rt) s)

/-- `sll $rd $rs $rt`: `x[rd] <- wrap(x[rs] * 2^x[rt])`; a negative count takes the fault `SHIFT_COUNT_NEGATIVE` and writes
nothing (R73, 60_exceptions.md R115). -/
def execSll (rs rt rd : Reg) (s : State) : Host.Outcome State Fault Refusal :=
  let n := readReg s rt
  if n < 0 then .next (raiseFault .shiftCountNegative (.sll rs rt rd) s)
  else .next (writeAndAdvance rd (shiftLeftWrap (readReg s rs) n.toNat) s)

end Sys2Proof.Machine
end

