-- ==== Sys2Proof/Machine/Dispatch.lean ====
section
/-! DEFINITION. The dispatch unit (40_executor_dispatch.md R65): one arm per instruction. -/

namespace Sys2Proof.Machine

def exec (i : Instr) (s : State) : Host.Outcome State Fault Refusal :=
  match i with
  | .add rs rt rd => Sys2Proof.Machine.execAdd rs rt rd s
  | .sub rs rt rd => Sys2Proof.Machine.execSub rs rt rd s
  | .sll rs rt rd => Sys2Proof.Machine.execSll rs rt rd s
  | .bth rs rt rd => Sys2Proof.Machine.execBth rs rt rd s
  | .lui _ rt immed => Sys2Proof.Machine.execLui rt immed s
  | .ori _ rt immed => Sys2Proof.Machine.execOri rt immed s
  | .lw rs rt immed => Sys2Proof.Machine.execLw rs rt immed s
  | .sw rs rt immed => Sys2Proof.Machine.execSw rs rt immed s
  | .andi rs rt immed => Sys2Proof.Machine.execAndi rs rt immed s
  | .addi rs rt immed => Sys2Proof.Machine.execAddi rs rt immed s

end Sys2Proof.Machine
end

