-- ==== Sys2Proof/Machine/Step.lean ====
section
/-! DEFINITION. The step of the executor (40_executor_dispatch.md R65, R66). -/

namespace Sys2Proof.Machine

/-- Decode and dispatch one word: an undecodable word takes its fault (40_executor_dispatch.md R65). -/
def runWord (w : InstrWord) (s : State) : Host.Outcome State Fault Refusal :=
  match decode w with
  | .ok i => exec i s
  | .error e => .next (takeFault (causeOfDecodeError e) w s)

/-- One step. It is enabled exactly when `st = RUN` and `pc < N` (40_executor_dispatch.md R65); where it is not, the
machine stops by name (notes/assumptions/4.md). -/
def step (s : State) : Host.Outcome State Fault Refusal :=
  match s.st with
  | .fault _ _ _ => .fault .halted
  | .run =>
    if s.pc < s.progLen then runWord (fetch s) s
    else if s.pc = s.progLen then .fault .programDone
    else .fault .pcBeyondProgram

/-- The machine with the table word `w` where the next step fetches (notes/assumptions/5.md). -/
def State.withFetchWord (s : State) (nbits w : Nat) : State := placeFetchWord (tableWord nbits w) s

end Sys2Proof.Machine
end

