-- ==== Sys2Proof/Machine/Assembler.lean ====
section
/-! DEFINITION. The toolchain's contract (30_encoding.md R58 to R64): from source lines to instruction words or one error,
and the object format. Software, no part of the machine's step (R62: "Neither error exists in the hardware"). A line is
its list of characters. -/

namespace Sys2Proof.Machine

/-! ### Tokens (R58) -/

/-- Everything from the first `#` on is a comment; commas are removed (R58; notes/assumptions/11.md). -/
def stripLine (line : List Char) : List Char := (line.takeWhile (fun c => c != '#')).filter (fun c => c != ',')

/-- Split on white space, `cur` being the token read so far, last character first. -/
def tokensFrom (cur : List Char) : List Char → List (List Char)
  | [] => if cur.isEmpty then [] else [cur.reverse]
  | c :: cs =>
    if c.isWhitespace then
      if cur.isEmpty then tokensFrom [] cs else cur.reverse :: tokensFrom [] cs
    else tokensFrom (c :: cur) cs

/-- The tokens of a source line (R58). -/
def tokens (line : List Char) : List (List Char) := tokensFrom [] (stripLine line)

/-- The spelling of a register operand (10_state.md R10, 30_encoding.md R58). -/
def regSpelling : Reg → String
  | .s0 => "$s0"
  | .r1 => "$r1"
  | .r2 => "$r2"
  | .r3 => "$r3"
  | .r4 => "$r4"
  | .r5 => "$r5"
  | .r6 => "$r6"
  | .r7 => "$r7"

/-- The mnemonics of R-type statements, lower case (R58, R59). -/
def rSpelling : RName → String
  | .add => "add"
  | .sub => "sub"
  | .sll => "sll"
  | .bth => "bth"

/-- The mnemonics of I-type statements, lower case (R58, R60). -/
def iSpelling : IName → String
  | .lui => "lui"
  | .ori => "ori"
  | .lw => "lw"
  | .sw => "sw"
  | .andi => "andi"
  | .addi => "addi"

/-- The register a token names. -/
def regOfToken (t : List Char) : Option Reg := Reg.all.find? fun r => (regSpelling r).toList == t

/-- The R-type mnemonic a token spells. -/
def rOfToken (t : List Char) : Option RName := RName.all.find? fun m => (rSpelling m).toList == t

/-- The I-type mnemonic a token spells. -/
def iOfToken (t : List Char) : Option IName := IName.all.find? fun m => (iSpelling m).toList == t

/-! ### Numbers (R64) -/

/-- The value of a decimal digit. -/
def decDigit (c : Char) : Option Nat :=
  if 48 ≤ c.toNat ∧ c.toNat ≤ 57 then some (c.toNat - 48) else none

/-- The value of a hexadecimal digit, letters in either case (notes/assumptions/11.md). -/
def hexDigit (c : Char) : Option Nat :=
  if 48 ≤ c.toNat ∧ c.toNat ≤ 57 then some (c.toNat - 48)
  else if 65 ≤ c.toNat ∧ c.toNat ≤ 70 then some (c.toNat - 55)
  else if 97 ≤ c.toNat ∧ c.toNat ≤ 102 then some (c.toNat - 87)
  else none

/-- The number a list of digits spells after the digits whose value is `acc`; `none` where one is no digit. -/
def digitsFrom (base : Nat) (digit : Char → Option Nat) (acc : Nat) : List Char → Option Nat
  | [] => some acc
  | c :: cs =>
    match digit c with
    | some d => digitsFrom base digit (acc * base + d) cs
    | none => none

/-- A number of one digit or more. -/
def natOfDigits (base : Nat) (digit : Char → Option Nat) (cs : List Char) : Option Nat :=
  if cs.isEmpty then none else digitsFrom base digit 0 cs

/-- "an optional `-` followed by decimal digits"; "`0x` followed by hexadecimal digits and is non-negative" (R64). -/
def numberOfToken (t : List Char) : Option Int :=
  match t with
  | '0' :: 'x' :: ds => (natOfDigits 16 hexDigit ds).map Int.ofNat
  | '-' :: ds => (natOfDigits 10 decDigit ds).map (fun n => -(Int.ofNat n))
  | ds => (natOfDigits 10 decDigit ds).map Int.ofNat

/-! ### Statements (R59 to R61) -/

/-- A source statement, operands in source order: the destination first (R59). -/
inductive Stmt where
  | rType (m : RName) (rd rs rt : Reg)
  | iType (m : IName) (rt : Reg) (value : Int)
  | li (rt : Reg) (value : Int)
deriving DecidableEq, Repr

/-- `<funct-mnemonic> $rd $rs $rt` (R59). -/
def rStmt (m a b c : List Char) : Option Stmt :=
  match rOfToken m, regOfToken a, regOfToken b, regOfToken c with
  | some m, some rd, some rs, some rt => some (.rType m rd rs rt)
  | _, _, _, _ => none

/-- `<opcode-mnemonic> $rt <immediate>` (R60) or `li $rt <unsigned-immediate>` (R61). -/
def iStmt (m a n : List Char) : Option Stmt :=
  match regOfToken a, numberOfToken n with
  | some rt, some v =>
    if m == "li".toList then some (.li rt v)
    else match iOfToken m with
      | some m => some (.iType m rt v)
      | none => none
  | _, _ => none

/-- The statement that tokens spell; `none` is "no recognized grammar" (R62). -/
def stmtOfTokens : List (List Char) → Option Stmt
  | [m, a, b, c] => rStmt m a b c
  | [m, a, n] => iStmt m a n
  | _ => none

/-- Which bound a RangeError reports as violated (R62). -/
inductive Bound where
  | lower (limit : Int)
  | upper (limit : Int)
deriving DecidableEq, Repr

/-- The bound that `v` violates, if any. -/
def violated (lo hi v : Int) : Option Bound :=
  if v < lo then some (.lower lo) else if hi < v then some (.upper hi) else none

/-- The six-bit halves of a `li` value (R61). -/
def liHigh (v : Int) : BitVec 6 := uBits 6 (v / 64)

/-- The low half, `v & 0x3F` (R61). -/
def liLow (v : Int) : BitVec 6 := uBits 6 v

/-- The words of a statement, or the bound its immediate violates: `[-32, 31]` when written directly (R60), `[0, 4095]` for
`li` (R61). -/
def wordsOfStmt : Stmt → Except Bound (List InstrWord)
  | .rType m rd rs rt => .ok [encodeR specTables m rs rt rd]
  | .iType m rt v =>
    match violated (-32) 31 v with
    | some b => .error b
    | none => .ok [packI (specTables.opc m) 0#3 rt.bits (uBits 6 v)]
  | .li rt v =>
    match violated 0 4095 v with
    | some b => .error b
    | none => .ok [packI (specTables.opc .lui) 0#3 rt.bits (liHigh v), packI (specTables.opc .ori) 0#3 rt.bits (liLow v)]

/-! ### Programs (R58, R62) -/

/-- The assembler's two error kinds (R62). -/
inductive AsmError where
  /-- "statement matches no recognized grammar → reports line number + raw text" -/
  | parseError (line : Nat) (raw : List Char)
  /-- "reports line number, value, and which bound was violated" -/
  | rangeError (line : Nat) (value : Int) (bound : Bound)
deriving DecidableEq, Repr

/-- The immediate a statement was written with. -/
def Stmt.value : Stmt → Int
  | .rType _ _ _ _ => 0
  | .iType _ _ v => v
  | .li _ v => v

/-- The words of source line number `n`; a line without tokens produces nothing (R58). -/
def assembleLine (n : Nat) (raw : List Char) : Except AsmError (List InstrWord) :=
  match tokens raw with
  | [] => .ok []
  | t :: ts =>
    match stmtOfTokens (t :: ts) with
    | none => .error (.parseError n raw)
    | some stmt =>
      match wordsOfStmt stmt with
      | .error b => .error (.rangeError n stmt.value b)
      | .ok ws => .ok ws

/-- The words of lines `n`, `n + 1`, …; the first error in line order aborts the whole (R62). -/
def assembleFrom (n : Nat) : List (List Char) → Except AsmError (List InstrWord)
  | [] => .ok []
  | raw :: rest =>
    match assembleLine n raw with
    | .error e => .error e
    | .ok ws =>
      match assembleFrom (n + 1) rest with
      | .error e => .error e
      | .ok more => .ok (ws ++ more)

/-- Assemble a source file given as its lines, numbered from 1 (R58). -/
def assemble (lines : List (List Char)) : Except AsmError (List InstrWord) := assembleFrom 1 lines

/-- The lines of a text, `cur` being the line read so far, last character first. DESIGN CHOICE: R58 says "one statement per
line" and not what ends a line; here a line feed does, and nothing else (notes/assumptions/11.md). -/
def linesFrom (cur : List Char) : List Char → List (List Char)
  | [] => [cur.reverse]
  | c :: cs => if c = '\n' then cur.reverse :: linesFrom [] cs else linesFrom (c :: cur) cs

/-- Assemble a source file given as text, one statement per line (R58). -/
def assembleText (text : List Char) : Except AsmError (List InstrWord) := assemble (linesFrom [] text)

/-! ### The object format (R63) -/

/-- One line of the object file: 16 characters, most significant bit first. -/
def objectLine (w : InstrWord) : List Char := (List.range 16).map fun k => if w.getMsbD k then '1' else '0'

/-- The object file: line `k`, counting from 0, is `Prog[k]`. -/
def objectFile (ws : List InstrWord) : List (List Char) := ws.map objectLine

/-- The bits of an object line after the bits whose number is `acc`; `none` where a character is neither `0` nor `1`. -/
def objectBitsFrom (acc : Nat) : List Char → Option Nat
  | [] => some acc
  | c :: cs =>
    if c = '0' then objectBitsFrom (2 * acc) cs
    else if c = '1' then objectBitsFrom (2 * acc + 1) cs
    else none

/-- The word of an object line; `none` where the line is not 16 characters of `0` and `1`. -/
def wordOfObjectLine (line : List Char) : Option InstrWord :=
  if line.length = 16 then (objectBitsFrom 0 line).map (BitVec.ofNat 16) else none

end Sys2Proof.Machine
end

