-- ==== Sys2Proof/Safety.lean ====
section
/-! DEFINITION. The terms claims use: where a run stands, which registers an instruction reads and writes (10_state.md R13),
the machine's invariant, and the exact run of the multiplier (43_booth_multiplier.md R100, R101). -/

namespace Sys2Proof.Machine

/-! ### Runs -/

/-- `Done` (40_executor_dispatch.md R67): how a safe run ends. -/
def State.Done (s : State) : Prop := s.st = .run ∧ s.pc = s.progLen

/-- `st` is a `FAULT` (10_state.md R17): how an unsafe run ends. -/
def State.Faulted (s : State) : Prop := ∃ cause index word, s.st = .fault cause index word

/-- `k` steps of the machine, stopping at the first fault or refusal: `Host.Core.run` of `Sys2Proof.core`
(Laws/Step.lean). -/
def stepN : Nat → State → Host.Outcome State Fault Refusal
  | 0, s => .next s
  | k + 1, s =>
    match step s with
    | .next t => stepN k t
    | .fault r => .fault r
    | .refused r => .refused r

/-! ### What a step does -/

/-- Nothing but the register file, `pc` and `st` may differ: the program store is as before, byte by byte. -/
def SameStore (s t : State) : Prop := t.progLen = s.progLen ∧ ∀ a, t.mem.read a = s.mem.read a

/-- From `s` to `t` an instruction completed: `x[rd]` is `v`, every other register is as before, `pc` is one higher, `st` and
the program store are as before (10_state.md R13, R15; 20_memory.md R40). -/
def Completes (rd : Reg) (v : Int) (s t : State) : Prop :=
  readReg t rd = v ∧ (∀ r, r ≠ rd → readReg t r = readReg s r) ∧ t.pc = s.pc + 1 ∧ t.st = s.st ∧ SameStore s t

/-- From `s` to `t` the word `w` faulted: `st` records cause, `pc` and word; registers, `pc` and the program store are as
before (60_exceptions.md R113). -/
def FaultsWith (cause : Cause) (w : InstrWord) (s t : State) : Prop :=
  t.st = .fault cause s.pc w ∧ (∀ r, readReg t r = readReg s r) ∧ t.pc = s.pc ∧ SameStore s t

/-- The signed 12-bit reading of an integer as a formula: what `wrap` of 00_scope.md R8 gives with `REGW` = 12. -/
def wrapped12 (v : Int) : Int := (v + 2048) % 4096 - 2048

/-! ### Register accesses -/

/-- The registers an instruction reads (10_state.md R13). -/
def readsOf : Instr → List Reg
  | .add rs rt _ => [rs, rt]
  | .sub rs rt _ => [rs, rt]
  | .sll rs rt _ => [rs, rt]
  | .bth rs rt _ => [rs, rt, .r3]
  | .lui _ _ _ => []
  | .ori _ rt _ => [rt]
  | .lw _ _ _ => []
  | .sw _ _ _ => []
  | .andi _ _ _ => []
  | .addi _ _ _ => []

/-- The registers an instruction writes when it does not fault (10_state.md R13). -/
def writesOf : Instr → List Reg
  | .add _ _ rd => [rd]
  | .sub _ _ rd => [rd]
  | .sll _ _ rd => [rd]
  | .bth _ _ rd => [rd]
  | .lui _ rt _ => [rt]
  | .ori _ rt _ => [rt]
  | .lw _ _ _ => []
  | .sw _ _ _ => []
  | .andi _ _ _ => []
  | .addi _ _ _ => []

/-- That `i` writes `r` can be seen: some run of `i` that completes leaves another value in `x[r]`. -/
def WriteShows (i : Instr) (r : Reg) : Prop :=
  ∃ s t, s.st = .run ∧ exec i s = .next t ∧ t.st = .run ∧ readReg t r ≠ readReg s r

/-- That `i` reads `r` can be seen: two runs of `i` that complete, from states whose registers differ in `x[r]` alone, leave
different values in a register `i` writes. -/
def ReadShows (i : Instr) (r : Reg) : Prop :=
  ∃ s u s' u', s.st = .run ∧ u.st = .run ∧ (∀ q, q ≠ r → readReg s q = readReg u q) ∧
    exec i s = .next s' ∧ exec i u = .next u' ∧ s'.st = .run ∧ u'.st = .run ∧
    ∃ q ∈ writesOf i, readReg s' q ≠ readReg u' q

/-! ### Faults and the invariant -/

/-- The fault, if any, that word `w` raises in state `s`, by the checks of 40_executor_dispatch.md R66 in their order: the
opcode, the funct, the reserved opcodes, the shift count. Written from that rule over the fields, not over `decode`. -/
def faultOfWord (w : InstrWord) (s : State) : Option Cause :=
  let f := unpack w
  if 7 ≤ f.opcode.toNat then some .unknownOpcode
  else if f.opcode.toNat = 0 ∧ 4 ≤ f.funct.toNat then some .unknownFunct
  else if 3 ≤ f.opcode.toNat then some .reservedOpcode
  else if f.opcode.toNat = 0 ∧ f.funct.toNat = 2 ∧ readReg s (Reg.ofBits f.rt) < 0 then some .shiftCountNegative
  else none

/-- A `FAULT` record tells the truth: it names the current index, the word there, and the cause that word has in this state
(10_state.md R17, 60_exceptions.md R113). -/
def State.faultRecordTrue (s : State) : Prop :=
  match s.st with
  | .run => True
  | .fault cause index word =>
    index = s.pc ∧ s.pc < s.progLen ∧ word = fetch s ∧ faultOfWord (fetch s) s = some cause

/-- The program store is canonical and lies inside `Prog[0..N-1]` (20_memory.md R35). -/
def State.storeOk (s : State) : Prop := s.mem.wf = true ∧ ∀ c ∈ s.mem, c.1 < 2 * s.progLen

/-- The invariant of the machine: the store is in form, `pc` lies in `[0, N]` (10_state.md R14), a fault record is true. -/
def State.Inv (s : State) : Prop := s.storeOk ∧ s.pc ≤ s.progLen ∧ s.faultRecordTrue

/-- The program has no undecodable word, and no such word has faulted: every word below `N` decodes, and `st` is no `FAULT`
with an unknown opcode or funct (30_encoding.md R56, 60_exceptions.md R111, R112). -/
def State.ProgramDecodes (s : State) : Prop :=
  (∀ k, k < s.progLen → ∃ i, decode (s.mem.readWord k) = .ok i) ∧
  ∀ index word, s.st ≠ .fault .unknownOpcode index word ∧ s.st ≠ .fault .unknownFunct index word

/-! ### The exact run of the multiplier -/

/-- Bit `j` of the recoded operand as a number, with `q(-1) = 0` for `j = -1` (43_booth_multiplier.md section 3). -/
def qBit (a : BitVec 6) (j : Int) : Int := if j < 0 then 0 else (a.getLsbD j.toNat).toInt

/-- The digit `d_i = -2*q(2i-1) + q(2i-2) + q(2i-3)`, `i` = 1, 2, 3 (R100). -/
def boothDigit (a : BitVec 6) (i : Int) : Int :=
  -2 * qBit a (2 * i - 1) + qBit a (2 * i - 2) + qBit a (2 * i - 3)

/-- The digit is `±2`: the addend comes from the side operand (R100, R101). -/
def isDouble (d : Int) : Bool := decide (d = 2) || decide (d = -2)

/-- `e_i` (R101). -/
def exactAddend (a b c : BitVec 6) (i : Int) : Int :=
  128 * boothDigit a i * (if isDouble (boothDigit a i) then sRead c else sRead b)

/-- `S_1 = A_0 + e_1` with `A_0 = 2a` (R101). -/
def exactS1 (a b c : BitVec 6) : Int := 2 * sRead a + exactAddend a b c 1

/-- `S_2 = floor(S_1 / 4) + e_2` (R101). -/
def exactS2 (a b c : BitVec 6) : Int := exactS1 a b c / 4 + exactAddend a b c 2

/-- `S_3 = floor(S_2 / 4) + e_3` (R101). -/
def exactS3 (a b c : BitVec 6) : Int := exactS2 a b c / 4 + exactAddend a b c 3

/-- A sum fits the 13-bit accumulator: it lies in `[-4096, 4095]` (R101). -/
def fits13 (S : Int) : Prop := -4096 ≤ S ∧ S ≤ 4095

/-- No sum of the exact run leaves the accumulator's range (R101). -/
def noOverflow (a b c : BitVec 6) : Prop :=
  fits13 (exactS1 a b c) ∧ fits13 (exactS2 a b c) ∧ fits13 (exactS3 a b c)

/-- The part of digit `i` in the weight of the addend operand (`double = false`) or of the side operand (`true`) (R101). -/
def digitWeight (a : BitVec 6) (double : Bool) (i : Int) : Int :=
  if isDouble (boothDigit a i) = double then boothDigit a i else 0

/-- `sum of d_i * 4^(i-1)` over the digits of one kind (R101). -/
def weightSum (a : BitVec 6) (double : Bool) : Int :=
  digitWeight a double 1 + 4 * digitWeight a double 2 + 16 * digitWeight a double 3

/-- The closed form `U + b * ... + c * ...` (R101). -/
def closedForm (a b c : BitVec 6) : Int :=
  (if sRead a < 0 then -1 else 0) + sRead b * weightSum a false + sRead c * weightSum a true

end Sys2Proof.Machine
end

