-- ==== Sys2Proof/Certificates/Slice0/Obligations.lean ====
section
/-! DEFINITION. The statements for the provers, from the numbered rules of spec/. -/

open Sys2Proof Sys2Proof.Machine

/-! ### Encoding -/

/-- Words of 95_test_vectors.md section 3.1 (E2 to E6, E7, E11 to E16) decode as the section says. -/
def Obligations.SpecVectorWordsDecode : Prop :=
  decode 0x02A0#16 = .ok (.add .r1 .r2 .r4) ∧ decode 0x0469#16 = .ok (.sub .r2 .r1 .r5) ∧
  decode 0x09BA#16 = .ok (.sll .r4 .r6 .r7) ∧ decode 0x029B#16 = .ok (.bth .r1 .r2 .r3) ∧
  decode 0x11BF#16 = .ok (.lui .s0 .r6 63) ∧ decode 0x2E4A#16 = .ok (.ori .r7 .r1 10) ∧
  decode 0x3040#16 = .ok (.lw .s0 .r1 0) ∧ decode 0x4040#16 = .ok (.sw .s0 .r1 0) ∧
  decode 0x5040#16 = .ok (.andi .s0 .r1 0) ∧ decode 0x607B#16 = .ok (.addi .s0 .r1 59) ∧
  decode 0x0004#16 = .error .unknownFunct ∧ decode 0x7000#16 = .error .unknownOpcode

/-- R50: the packed word as a number, and both round trips of packing and field extraction. -/
def Obligations.PackingAndUnpackingAreInverse : Prop :=
  (∀ rs rt rd funct : BitVec 3,
    (packR rs rt rd funct).toNat = rs.toNat * 512 + rt.toNat * 64 + rd.toNat * 8 + funct.toNat ∧
    (unpack (packR rs rt rd funct)).opcode = 0#4 ∧ (unpack (packR rs rt rd funct)).rs = rs ∧
    (unpack (packR rs rt rd funct)).rt = rt ∧ (unpack (packR rs rt rd funct)).rd = rd ∧
    (unpack (packR rs rt rd funct)).funct = funct) ∧
  (∀ (opcode : BitVec 4) (rs rt : BitVec 3) (immed : BitVec 6),
    (packI opcode rs rt immed).toNat = opcode.toNat * 4096 + rs.toNat * 512 + rt.toNat * 64 + immed.toNat ∧
    (unpack (packI opcode rs rt immed)).opcode = opcode ∧ (unpack (packI opcode rs rt immed)).rs = rs ∧
    (unpack (packI opcode rs rt immed)).rt = rt ∧ (unpack (packI opcode rs rt immed)).immed = immed) ∧
  (∀ w : InstrWord, (unpack w).opcode = 0#4 →
    packR (unpack w).rs (unpack w).rt (unpack w).rd (unpack w).funct = w) ∧
  (∀ w : InstrWord, packI (unpack w).opcode (unpack w).rs (unpack w).rt (unpack w).immed = w)

/-- Decode and encode agree on every well-formed instruction, for every pair of tables that the spec's constraint admits
(R51, R52), the spec's own among them. -/
def Obligations.DecodeOfEncodeUnderEveryValidTable : Prop :=
  specTables.Valid ∧
  ∀ (T : Tables) (i : Instr), T.Valid → i.wellFormed = true → decodeWith T (encodeWith T i) = .ok i

/-- Every word that decodes, under any tables, is the word of the instruction it decodes to, and that instruction is well
formed: no bit of a word is dropped. -/
def Obligations.EncodeOfDecodedWordIsTheWord : Prop :=
  ∀ (T : Tables) (w : InstrWord) (i : Instr), decodeWith T w = .ok i → encodeWith T i = w ∧ i.wellFormed = true

/-- The partition of the words (R56): which words decode and how the others are rejected, by the word's number. -/
def Obligations.DecodeRejectsExactlyTheUnassignedWords : Prop :=
  ∀ w : InstrWord,
    (decode w = .error .unknownOpcode ↔ 7 ≤ w.toNat / 4096) ∧
    (decode w = .error .unknownFunct ↔ w.toNat / 4096 = 0 ∧ 4 ≤ w.toNat % 8) ∧
    ((∃ i, decode w = .ok i) ↔ w.toNat / 4096 ≤ 6 ∧ (w.toNat / 4096 = 0 → w.toNat % 8 < 4))

/-! ### Reset and the program store -/

/-- R22, R130: what reset leaves, in `State.reset` and after the reset event from any state; the program store is kept. -/
def Obligations.ResetLeavesTheResetValues : Prop :=
  (∀ r, readReg State.reset r = 0) ∧ State.reset.pc = 0 ∧ State.reset.st = .run ∧
  ∀ s : State, (∀ r, readReg (resetEvent s) r = 0) ∧ (resetEvent s).pc = 0 ∧ (resetEvent s).st = .run ∧
    SameStore s (resetEvent s)

/-- A loaded program stands in the store word by word, `N` is its length, and the machine is as reset leaves it. That the
store is loaded this way, as bytes, is the model's choice (notes/assumptions/1.md, 2.md and 5.md). -/
def Obligations.LoadedProgramStandsInTheStore : Prop :=
  ∀ ws : List InstrWord,
    (loadProgram ws).progLen = ws.length ∧ (loadProgram ws).pc = 0 ∧ (loadProgram ws).st = .run ∧
    (∀ r, readReg (loadProgram ws) r = 0) ∧
    ∀ (k : Nat) (h : k < ws.length), (loadProgram ws).mem.readWord k = ws[k]

/-- R40: along every run, from any state, `N` and every word of the program store stay as they are. -/
def Obligations.ProgramStoreIsImmutableInARun : Prop :=
  ∀ (k : Nat) (s t : State), stepN k s = .next t →
    SameStore s t ∧ ∀ i, t.mem.readWord i = s.mem.readWord i

/-! ### The step -/

/-- A step runs the decoded instruction: where a step is enabled and the word at `pc` decodes to `i`, the step is `exec i`,
with nothing added. -/
def Obligations.StepRunsTheDecodedInstruction : Prop :=
  ∀ (s : State) (i : Instr), s.st = .run → s.pc < s.progLen → decode (s.mem.readWord s.pc) = .ok i → step s = exec i s

/-- R65: a step is enabled exactly when `st = RUN` and `pc < N`, whatever the word is. -/
def Obligations.StepIsEnabledExactlyInRunBelowN : Prop :=
  ∀ s : State, (∃ t, step s = .next t) ↔ (s.st = .run ∧ s.pc < s.progLen)

/-- The names under which the model's step stops where no step is enabled; the names are the model's choice
(notes/assumptions/4.md). -/
def Obligations.StopsAreNamed : Prop :=
  ∀ s : State,
    (s.Faulted → step s = .fault .halted) ∧ (s.Done → step s = .fault .programDone) ∧
    (s.st = .run → s.progLen < s.pc → step s = .fault .pcBeyondProgram)

/-- R15: a completed instruction advances `pc` by one, a faulting word leaves it, and `pc` never passes `N`. -/
def Obligations.PcAdvancesByOneOrStaysOnAFault : Prop :=
  ∀ s t : State, step s = .next t →
    (t.st = .run → t.pc = s.pc + 1) ∧ (t.st ≠ .run → t.pc = s.pc) ∧ t.pc ≤ t.progLen

/-- R67: a `Done` state and a `FAULT` state have no step; each step increases `pc` by one or faults; with `N = 0` the state
after reset is already `Done`; from every running state with `pc` in `[0, N]` the run ends after at most `N - pc` steps in
exactly one of the two. -/
def Obligations.EveryRunEndsDoneOrFaulted : Prop :=
  (∀ s : State, s.Done ∨ s.Faulted → ∀ u, step s ≠ .next u) ∧
  (∀ s : State, ¬ (s.Done ∧ s.Faulted)) ∧
  (∀ s t : State, step s = .next t → (t.pc = s.pc + 1 ∧ t.st = .run) ∨ (t.pc = s.pc ∧ t.Faulted)) ∧
  (∀ s : State, s.progLen = 0 → (resetEvent s).Done) ∧
  ∀ s : State, s.st = .run → s.pc ≤ s.progLen →
    ∃ k t, k ≤ s.progLen - s.pc ∧ stepN k s = .next t ∧ (t.Done ∨ t.Faulted)

/-! ### Faults -/

/-- R111: an opcode of 7 to 15 faults, whatever the other twelve bits are. -/
def Obligations.UnknownOpcodeFaults : Prop :=
  ∀ s : State, s.st = .run → s.pc < s.progLen → 7 ≤ (s.mem.readWord s.pc).toNat / 4096 →
    ∃ t, step s = .next t ∧ FaultsWith .unknownOpcode (s.mem.readWord s.pc) s t

/-- R112: opcode 0 with a funct of 4 to 7 faults, whatever the register fields are. -/
def Obligations.UnknownFunctFaults : Prop :=
  ∀ s : State, s.st = .run → s.pc < s.progLen → (s.mem.readWord s.pc).toNat / 4096 = 0 →
    4 ≤ (s.mem.readWord s.pc).toNat % 8 →
    ∃ t, step s = .next t ∧ FaultsWith .unknownFunct (s.mem.readWord s.pc) s t

/-- R114: an opcode of `lw`, `sw`, `andi` or `addi` (3 to 6) faults when it is reached, with no register read or written. -/
def Obligations.ReservedOpcodeFaultsWhenReached : Prop :=
  ∀ s : State, s.st = .run → s.pc < s.progLen → 3 ≤ (s.mem.readWord s.pc).toNat / 4096 →
    (s.mem.readWord s.pc).toNat / 4096 ≤ 6 →
    ∃ t, step s = .next t ∧ FaultsWith .reservedOpcode (s.mem.readWord s.pc) s t

/-- R118, R66: the outcome of every enabled step is the one the order of checks fixes: the cause of `faultOfWord`, or no
fault. -/
def Obligations.FaultCauseFollowsTheOrderOfChecks : Prop :=
  ∀ s : State, s.st = .run → s.pc < s.progLen → ∃ t, step s = .next t ∧
    match faultOfWord (s.mem.readWord s.pc) s with
    | some cause => FaultsWith cause (s.mem.readWord s.pc) s t
    | none => t.st = .run ∧ t.pc = s.pc + 1

/-- R113: a fault records the cause, `pc` and the word, changes nothing else, and no later step exists, for any number of
steps. -/
def Obligations.FaultIsPreciseAndFinal : Prop :=
  ∀ (s t : State) (cause : Cause) (index : Nat) (word : InstrWord),
    step s = .next t → t.st = .fault cause index word →
    index = s.pc ∧ word = s.mem.readWord s.pc ∧ FaultsWith cause word s t ∧
    ∀ k u, stepN (k + 1) t ≠ .next u

/-! ### Observation -/

/-- The derived bits and the register observation show the state: `done` is `Done`, `faulted` is `FAULT`, and the eight
patterns stand in index order (10_state.md section 9). That the registers show in every state, in `RUN` before `Done` too, is
the model's choice (notes/assumptions/16.md). -/
def Obligations.ObservationShowsTheState : Prop :=
  ∀ s : State,
    ((observe s).done = true ↔ s.st = .run ∧ s.pc = s.progLen) ∧
    ((observe s).faulted = true ↔ s.Faulted) ∧ (observe s).pc = s.pc ∧ (observe s).st = s.st ∧
    (observe s).registers =
      [s.regs.s0, s.regs.r1, s.regs.r2, s.regs.r3, s.regs.r4, s.regs.r5, s.regs.r6, s.regs.r7]

/-! ### The invariant -/

/-- The invariant holds right after reset. That the store of `State.reset` is empty is the model's choice
(notes/assumptions/5.md). -/
def Obligations.ResetMeetsTheInvariant : Prop := State.reset.Inv

/-- The invariant holds of every loaded program, and the reset event restores it in every state whose store is in form. The
loader, the store as bytes and its canonical form are the model's choice (notes/assumptions/5.md, 1.md and 3.md) and not the
spec's; that the reset event keeps the store is 70_reset_and_hazards.md R130. -/
def Obligations.LoadAndResetEventMeetTheInvariant : Prop :=
  (∀ ws, (loadProgram ws).Inv) ∧ ∀ s : State, s.storeOk → (resetEvent s).Inv

/-- Every step keeps the invariant: the store canonical and inside `Prog[0..N-1]`, `pc` in `[0, N]` (R14), and a `FAULT`
record that names the index, the word there and the cause that word has (R17). The store's byte form is the model's choice
(notes/assumptions/1.md and 3.md). -/
def Obligations.StepKeepsTheInvariant : Prop :=
  ∀ s t : State, s.Inv → step s = .next t → t.Inv

/-! ### Instructions: result, frame, completion -/

/-- R13: the registers each instruction reads and writes, in both directions. Every register outside `writesOf` is unchanged, a
word that faults changes none, and the outcome depends on no register outside `readsOf`. And every access of the table shows
in some run, but for two forms whose access no run can show: `ori` with immediate 0, which writes back what it read, and `sub`
of a register with itself, whose result is always 0. -/
def Obligations.RegisterAccessesAreThoseOfTheTable : Prop :=
  (∀ i, (writesOf i).length ≤ 1) ∧
  (∀ (i : Instr) (s t : State), exec i s = .next t →
    (∀ r, r ∉ writesOf i → readReg t r = readReg s r) ∧ (t.Faulted → s.st = .run → ∀ r, readReg t r = readReg s r)) ∧
  (∀ s t : State, step s = .next t → t.Faulted → ∀ r, readReg t r = readReg s r) ∧
  (∀ (i : Instr) (s u s' u' : State), s.st = .run → u.st = .run → (∀ r ∈ readsOf i, readReg s r = readReg u r) →
    exec i s = .next s' → exec i u = .next u' → s'.st = .run →
    u'.st = .run ∧ ∀ r ∈ writesOf i, readReg s' r = readReg u' r) ∧
  ∀ (i : Instr) (r : Reg), i.wellFormed = true →
    (WriteShows i r ↔ r ∈ writesOf i ∧ ∀ rs rt, i ≠ .ori rs rt 0) ∧
    (ReadShows i r ↔ r ∈ readsOf i ∧ ∀ q rd, i ≠ .sub q q rd)

/-- R71: `add` completes from every state; encoding, result, frame. -/
def Obligations.AddWritesTheWrappedSum : Prop :=
  ∀ (s : State) (rs rt rd : Reg),
    (encode (.add rs rt rd)).toNat = rs.bits.toNat * 512 + rt.bits.toNat * 64 + rd.bits.toNat * 8 ∧
    ∃ t, exec (.add rs rt rd) s = .next t ∧ Completes rd (wrapped12 (readReg s rs + readReg s rt)) s t

/-- R72: `sub` completes from every state; encoding, result, frame. -/
def Obligations.SubWritesTheWrappedDifference : Prop :=
  ∀ (s : State) (rs rt rd : Reg),
    (encode (.sub rs rt rd)).toNat = rs.bits.toNat * 512 + rt.bits.toNat * 64 + rd.bits.toNat * 8 + 1 ∧
    ∃ t, exec (.sub rs rt rd) s = .next t ∧ Completes rd (wrapped12 (readReg s rs - readReg s rt)) s t

/-- R73: `sll` with a count of 0 or more completes and writes the wrapped product with the power of two, for every count
up to the largest; with a negative count it takes the fault and writes nothing (R115). -/
def Obligations.SllWritesTheWrappedShiftOrFaults : Prop :=
  ∀ (s : State) (rs rt rd : Reg),
    (encode (.sll rs rt rd)).toNat = rs.bits.toNat * 512 + rt.bits.toNat * 64 + rd.bits.toNat * 8 + 2 ∧
    (0 ≤ readReg s rt → ∃ t, exec (.sll rs rt rd) s = .next t ∧
      Completes rd (wrapped12 (readReg s rs * 2 ^ (readReg s rt).toNat)) s t) ∧
    (readReg s rt < 0 → ∃ t, exec (.sll rs rt rd) s = .next t ∧
      FaultsWith .shiftCountNegative (encode (.sll rs rt rd)) s t)

/-- R81: `lui` completes from every state: the register receives the unsigned immediate itself, whatever `rs` is. -/
def Obligations.LuiLoadsTheUnshiftedImmediate : Prop :=
  ∀ (s : State) (rs rt : Reg) (immed : Nat), immed < 64 →
    (encode (.lui rs rt immed)).toNat = 1 * 4096 + rs.bits.toNat * 512 + rt.bits.toNat * 64 + immed ∧
    ∃ t, exec (.lui rs rt immed) s = .next t ∧ Completes rt (immed : Int) s t

/-- R82: `ori` completes from every state: bit by bit the OR with the immediate, so that only bits 5 to 0 can change, only
from 0 to 1, and the sign stays. -/
def Obligations.OriSetsTheBitsOfTheImmediate : Prop :=
  ∀ (s : State) (rs rt : Reg) (immed : Nat), immed < 64 →
    (encode (.ori rs rt immed)).toNat = 2 * 4096 + rs.bits.toNat * 512 + rt.bits.toNat * 64 + immed ∧
    ∃ t, exec (.ori rs rt immed) s = .next t ∧ Completes rt (readReg t rt) s t ∧
      (∀ k, k < 12 → (t.regs.get rt).getLsbD k = ((s.regs.get rt).getLsbD k || immed.testBit k)) ∧
      (readReg t rt < 0 ↔ readReg s rt < 0)

/-- R83 to R86: `lw`, `sw`, `andi` and `addi` take the fault `RESERVED_OPCODE` from every state, on every operand. Taking it
is all they do. -/
def Obligations.ReservedInstructionsTakeTheFault : Prop :=
  ∀ (s : State) (rs rt : Reg) (immed : Nat), immed < 64 →
    ∀ p ∈ [(Instr.lw rs rt immed, 3), (Instr.sw rs rt immed, 4), (Instr.andi rs rt immed, 5), (Instr.addi rs rt immed, 6)],
      (encode p.1).toNat = p.2 * 4096 + rs.bits.toNat * 512 + rt.bits.toNat * 64 + immed ∧
      ∃ t, exec p.1 s = .next t ∧ FaultsWith .reservedOpcode (encode p.1) s t

/-- R98, R99: `bth` completes from every state, `rd = 3` included: all three registers are read before the write, and the
register receives the signed reading of the 12-bit product. -/
def Obligations.BthWritesTheSignedProduct : Prop :=
  ∀ (s : State) (rs rt rd : Reg),
    (encode (.bth rs rt rd)).toNat = rs.bits.toNat * 512 + rt.bits.toNat * 64 + rd.bits.toNat * 8 + 3 ∧
    ∃ t, exec (.bth rs rt rd) s = .next t ∧
      Completes rd (boothMul ((s.regs.get rs).extractLsb' 0 6) ((s.regs.get rt).extractLsb' 0 6)
        (s.regs.r3.extractLsb' 0 6)).toInt s t

/-- R92: `bth` multiplies `u_6(x[rs])`, `u_6(x[rt])` and `u_6(x[3])`, whatever the three values are, where `u_6(v)` is the
pattern whose number is `v` modulo 64; so two states that agree on the residues modulo 64 of the three registers get the same
product. A value in `[-32, 31]` stands for itself, and 40 is the pattern `101000`, that is -24. -/
def Obligations.BthUsesOnlyTheLowSixBits : Prop :=
  (∀ (s : State) (rs rt rd : Reg), ∃ t, exec (.bth rs rt rd) s = .next t ∧
    readReg t rd = (boothMul (low6 (readReg s rs)) (low6 (readReg s rt)) (low6 (readReg s .r3))).toInt) ∧
  (∀ (s u s' u' : State) (rs rt rd : Reg),
    readReg s rs % 64 = readReg u rs % 64 → readReg s rt % 64 = readReg u rt % 64 →
    readReg s .r3 % 64 = readReg u .r3 % 64 →
    exec (.bth rs rt rd) s = .next s' → exec (.bth rs rt rd) u = .next u' → readReg s' rd = readReg u' rd) ∧
  (∀ v : Int, ((low6 v).toNat : Int) = v % 64 ∧ (-32 ≤ v → v ≤ 31 → (low6 v).toInt = v)) ∧
  low6 40 = 0b101000#6 ∧ (low6 40).toInt = -24

/-- R74: `add`, `sub` and `sll` are the two's complement operations on the 12-bit patterns. -/
def Obligations.ArithmeticIsTwosComplementOnPatterns : Prop :=
  ∀ (s : State) (rs rt rd : Reg),
    (∃ t, exec (.add rs rt rd) s = .next t ∧ t.regs.get rd = s.regs.get rs + s.regs.get rt) ∧
    (∃ t, exec (.sub rs rt rd) s = .next t ∧ t.regs.get rd = s.regs.get rs - s.regs.get rt) ∧
    (0 ≤ readReg s rt → ∃ t, exec (.sll rs rt rd) s = .next t ∧
      t.regs.get rd = s.regs.get rs <<< (s.regs.get rt).toNat)

/-- R55: the field `rs` of a `lui` or `ori` word is ignored: from any state whose store is in form, all its values give the
same registers, `pc` and `st`. That the word is placed in the store from outside is the model's choice
(notes/assumptions/5.md), and so is the store's form (1.md and 3.md). -/
def Obligations.RsOfLuiAndOriWordsIsIgnored : Prop :=
  ∀ (s : State) (opcode : BitVec 4) (rs rs' rt : BitVec 3) (immed : BitVec 6),
    s.mem.wf = true → opcode = 1#4 ∨ opcode = 2#4 →
    ∃ t t', step (placeFetchWord (packI opcode rs rt immed) s) = .next t ∧
      step (placeFetchWord (packI opcode rs' rt immed) s) = .next t' ∧
      t.regs = t'.regs ∧ t.pc = t'.pc ∧ t.st = .run ∧ t'.st = .run

/-! ### The Booth multiplier -/

/-- R93: the accumulator starts as the sign-extended operand with a pad bit 0; as a signed number it is twice the operand,
and its upper field is all ones for a negative operand. -/
def Obligations.AccumulatorStartsAsTwiceTheOperand : Prop :=
  ∀ a : BitVec 6, (boothInit a).toInt = 2 * a.toInt ∧ (boothInit a).extractLsb' 0 1 = 0#1 ∧
    (boothInit a).extractLsb' 1 6 = a ∧
    (boothInit a).extractLsb' 7 6 = if a.toInt < 0 then 0b111111#6 else 0b000000#6

/-- R94: the four addends, as numbers modulo `2^13`. -/
def Obligations.AddendsAreTheWeightedOperands : Prop :=
  ∀ b c : BitVec 6,
    (boothAddends b c).B.toInt = 128 * b.toInt ∧
    ((boothAddends b c).negB.toNat : Int) = (-128 * b.toInt) % 8192 ∧
    ((boothAddends b c).B2.toNat : Int) = (256 * c.toInt) % 8192 ∧
    ((boothAddends b c).negB2.toNat : Int) = (-256 * c.toInt) % 8192

/-- R95: the recoding table, row by row. -/
def Obligations.RecodingTableSelectsTheAddend : Prop :=
  ∀ d : Addends,
    selectAddend d 0b000#3 = 0#13 ∧ selectAddend d 0b001#3 = d.B ∧ selectAddend d 0b010#3 = d.B ∧
    selectAddend d 0b011#3 = d.B2 ∧ selectAddend d 0b100#3 = d.negB2 ∧ selectAddend d 0b101#3 = d.negB ∧
    selectAddend d 0b110#3 = d.negB ∧ selectAddend d 0b111#3 = 0#13

/-- R96: one cycle adds the selected addend modulo `2^13`, reads the sum as signed, and divides it by four, rounding down. -/
def Obligations.CycleIsModularSumThenFloorQuarter : Prop :=
  ∀ (d : Addends) (A : BitVec 13),
    let total : Int := (A.toNat : Int) + (selectAddend d (A.extractLsb' 0 3)).toNat
    (boothCycle d A).toInt = ((total + 4096) % 8192 - 4096) / 4

/-- R100: the bits inspected in cycle `i` are `q(2i-1) q(2i-2) q(2i-3)` of the original operand whatever the addends are, the
digits sum to the operand, and the addend chosen is the digit's, modulo `2^13`. -/
def Obligations.RecodingDependsOnTheOperandAlone : Prop :=
  (∀ (a b c : BitVec 6) (n : Nat), n < 3 →
    let A := boothRun (boothAddends b c) n (boothInit a)
    let i : Int := (n : Int) + 1
    ((A.getLsbD 2).toInt = qBit a (2 * i - 1) ∧ (A.getLsbD 1).toInt = qBit a (2 * i - 2) ∧
      (A.getLsbD 0).toInt = qBit a (2 * i - 3)) ∧
    ((selectAddend (boothAddends b c) (A.extractLsb' 0 3)).toNat : Int) = exactAddend a b c i % 8192) ∧
  ∀ a : BitVec 6, boothDigit a 1 + 4 * boothDigit a 2 + 16 * boothDigit a 3 = a.toInt ∧
    ∀ i ∈ [(1 : Int), 2, 3], -2 ≤ boothDigit a i ∧ boothDigit a i ≤ 2

/-- R101: where no sum of the exact run leaves `[-4096, 4095]` the product is the closed form, and where one does it is not. -/
def Obligations.ProductIsTheClosedFormExactlyWithoutOverflow : Prop :=
  ∀ a b c : BitVec 6, (boothMul a b c).toInt = closedForm a b c ↔ noOverflow a b c

/-- R105: whatever overflows, the product is off the closed form by a multiple of 64. -/
def Obligations.OverflowErrorIsAMultipleOf64 : Prop :=
  ∀ a b c : BitVec 6, ((boothMul a b c).toInt - closedForm a b c) % 64 = 0

/-- R102 (i), as a contract on the machine: with `0 <= x[rs] <= 31`, `-15 <= x[rt] <= 16` and `x[3]` agreeing with `x[rt]` in
the low six bits, `bth` writes the exact product; (ii) with both operands of the addends in `[-13, 13]` nothing overflows. -/
def Obligations.BthIsExactOnItsGuaranteedDomain : Prop :=
  (∀ (s : State) (rs rt rd : Reg), 0 ≤ readReg s rs → readReg s rs ≤ 31 → -15 ≤ readReg s rt → readReg s rt ≤ 16 →
    readReg s .r3 % 64 = readReg s rt % 64 →
    ∃ t, exec (.bth rs rt rd) s = .next t ∧ Completes rd (readReg s rs * readReg s rt) s t) ∧
  ∀ a b c : BitVec 6, -13 ≤ b.toInt → b.toInt ≤ 13 → -13 ≤ c.toInt → c.toInt ≤ 13 → noOverflow a b c

/-- R103, as a contract on the machine: with a negative recoded operand and a matching side operand `bth` never writes the
product; where nothing overflows, and in particular for `-16 <= x[rt] <= 15`, it writes one less. -/
def Obligations.BthOfNegativeOperandIsOneLess : Prop :=
  ∀ (s : State) (rs rt rd : Reg), -32 ≤ readReg s rs → readReg s rs ≤ -1 → -32 ≤ readReg s rt → readReg s rt ≤ 31 →
    readReg s .r3 % 64 = readReg s rt % 64 →
    ∃ t, exec (.bth rs rt rd) s = .next t ∧ readReg t rd ≠ readReg s rs * readReg s rt ∧
      (noOverflow (low6 (readReg s rs)) (low6 (readReg s rt)) (low6 (readReg s rt)) →
        readReg t rd = readReg s rs * readReg s rt - 1) ∧
      (-16 ≤ readReg s rt → readReg s rt ≤ 15 → readReg t rd = readReg s rs * readReg s rt - 1)

/-- R104: the product depends on the side operand exactly for the operands with a digit `±2`, which are all but 27 values;
for the 8 values without a digit `±1` it does not depend on the addend operand. -/
def Obligations.SideOperandMattersExactlyForDoubledDigits : Prop :=
  (∀ a : BitVec 6,
    ((∃ b c c' : BitVec 6, boothMul a b c ≠ boothMul a b c') ↔
      ∃ i ∈ [(1 : Int), 2, 3], isDouble (boothDigit a i) = true) ∧
    ((∃ i ∈ [(1 : Int), 2, 3], isDouble (boothDigit a i) = true) ↔
      a.toInt ∉ [(-21 : Int), -20, -19, -17, -16, -15, -13, -12, -11, -5, -4, -3, -1, 0, 1, 3, 4, 5, 11, 12, 13, 15, 16,
        17, 19, 20, 21])) ∧
  ∀ a : BitVec 6, a.toInt ∈ [(-32 : Int), -26, -8, -2, 0, 6, 24, 30] →
    (∀ i ∈ [(1 : Int), 2, 3], boothDigit a i ≠ 1 ∧ boothDigit a i ≠ -1) ∧
    ∀ b b' c : BitVec 6, boothMul a b c = boothMul a b' c

/-- R106: the three top bits of a product are equal, so it lies in `[-512, 511]`; the true product of two operands always lies
in `[-992, 1024]`. -/
def Obligations.ProductsStayBelow512 : Prop :=
  (∀ a b c : BitVec 6,
    (boothMul a b c).getLsbD 11 = (boothMul a b c).getLsbD 10 ∧ (boothMul a b c).getLsbD 10 = (boothMul a b c).getLsbD 9 ∧
    -512 ≤ (boothMul a b c).toInt ∧ (boothMul a b c).toInt ≤ 511) ∧
  ∀ a b : BitVec 6, -992 ≤ a.toInt * b.toInt ∧ a.toInt * b.toInt ≤ 1024

/-! ### The assembler and `li` -/

/-- R61: `li` expands to the words of `lui` and `ori` with the two halves, which recombine to the value, for every value in
`[0, 4095]`; any other value is a RangeError against the bound it violates. -/
def Obligations.LiExpandsToItsTwoHalves : Prop :=
  ∀ (rt : Reg) (v : Int),
    (0 ≤ v → v ≤ 4095 → ∃ high low : Nat, high < 64 ∧ low < 64 ∧ (high * 64 + low : Int) = v ∧
      wordsOfStmt (.li rt v) = .ok [encode (.lui .s0 rt high), encode (.ori .s0 rt low)]) ∧
    (v < 0 → wordsOfStmt (.li rt v) = .error (.lower 0)) ∧
    (4095 < v → wordsOfStmt (.li rt v) = .error (.upper 4095))

/-- R87: the two words of `li`, executed in order from any running state, leave the OR of the two halves in the register and
change nothing else but `pc`; this is the value itself exactly when it is at most 63. -/
def Obligations.LiLeavesTheOrOfItsHalves : Prop :=
  ∀ (s : State) (rt : Reg) (v : Nat), v ≤ 4095 → s.st = .run → s.pc + 1 < s.progLen →
    wordsOfStmt (.li rt v) = .ok [s.mem.readWord s.pc, s.mem.readWord (s.pc + 1)] →
    ∃ t, stepN 2 s = .next t ∧
      readReg t rt = ((v / 64 ||| v % 64 : Nat) : Int) ∧ (∀ r, r ≠ rt → readReg t r = readReg s r) ∧
      t.pc = s.pc + 2 ∧ t.st = .run ∧ SameStore s t ∧ (readReg t rt = (v : Int) ↔ v ≤ 63)

/-- R59, R60: a written statement assembles to one word, which decodes to its instruction with `rs` = 0 and the two's
complement pattern of the immediate; an immediate outside `[-32, 31]` is a RangeError against the bound it violates. -/
def Obligations.StatementsAssembleToTheirInstruction : Prop :=
  (∀ (m : RName) (rd rs rt : Reg), ∃ w, wordsOfStmt (.rType m rd rs rt) = .ok [w] ∧
    decode w = .ok (Instr.ofR m rs rt rd)) ∧
  ∀ (m : IName) (rt : Reg) (v : Int),
    (-32 ≤ v → v ≤ 31 → ∃ w, wordsOfStmt (.iType m rt v) = .ok [w] ∧
      decode w = .ok (Instr.ofI m .s0 rt (v % 64).toNat)) ∧
    (v < -32 → wordsOfStmt (.iType m rt v) = .error (.lower (-32))) ∧
    (31 < v → wordsOfStmt (.iType m rt v) = .error (.upper 31))

/-- The whole assembly fails exactly when some line does, with no words at all (30_encoding.md R62). That of several bad lines
the first in line order is the one reported is the model's reading of "surfaced immediately", DEDUCED
(notes/assumptions/11.md). -/
def Obligations.AssemblyReportsTheFirstBadLine : Prop :=
  ∀ (lines : List (List Char)) (e : AsmError),
    assemble lines = .error e ↔
      ∃ (k : Nat) (h : k < lines.length), assembleLine (k + 1) lines[k] = .error e ∧
        ∀ (j : Nat) (hj : j < k), ∃ ws, assembleLine (j + 1) (lines[j]'(Nat.lt_trans hj h)) = .ok ws

/-- R63: an object line is the 16 bits of its word, most significant first, and reads back as the word; line `k` of the object
file is the line of word `k`. -/
def Obligations.ObjectLinesSpellTheWords : Prop :=
  (∀ w : InstrWord, (objectLine w).length = 16 ∧
    (∀ k, k < 16 → (objectLine w)[k]? = some (if w.getLsbD (15 - k) then '1' else '0')) ∧
    wordOfObjectLine (objectLine w) = some w) ∧
  ∀ ws : List InstrWord, (objectFile ws).length = ws.length ∧ ∀ k : Nat, (objectFile ws)[k]? = ws[k]?.map objectLine

/-- No program the assembler produces ever stops on a decode error: along every run of every assembled program, from every
starting register file, `st` is never a `FAULT` with an unknown opcode or an unknown funct. How the program comes into the
store (`loadProgram`) is the model's choice (notes/assumptions/5.md). -/
def Obligations.AssembledProgramsNeverFailToDecode : Prop :=
  ∀ (lines : List (List Char)) (ws : List InstrWord) (regs : RegFile) (k : Nat) (t : State), assemble lines = .ok ws →
    stepN k { loadProgram ws with regs := regs } = .next t →
    ∀ index word, t.st ≠ .fault .unknownOpcode index word ∧ t.st ≠ .fault .unknownFunct index word

/-- Every step keeps a program decodable and free of decode faults: from every state whose words below `N` all decode (R56) and
whose `st` is no `FAULT` with an unknown opcode or funct, a step leads only to such a state (R111, R112 name those faults'
only causes). -/
def Obligations.StepKeepsTheProgramDecodable : Prop :=
  ∀ s t : State, s.ProgramDecodes → step s = .next t → t.ProgramDecodes

/-- Where decodable programs come from: reset, a load of words that all decode, every program the assembler produces, and the
reset event over a store whose words decode. The load and the empty store of `State.reset` are the model's choice
(notes/assumptions/5.md). -/
def Obligations.LoadedAndAssembledProgramsAreDecodable : Prop :=
  State.reset.ProgramDecodes ∧
  (∀ ws : List InstrWord, (∀ w ∈ ws, ∃ i, decode w = .ok i) → (loadProgram ws).ProgramDecodes) ∧
  (∀ (lines : List (List Char)) (ws : List InstrWord), assemble lines = .ok ws → (loadProgram ws).ProgramDecodes) ∧
  ∀ s : State, (∀ k, k < s.progLen → ∃ i, decode (s.mem.readWord k) = .ok i) → (resetEvent s).ProgramDecodes
end

