-- ==== Sys2Proof/Laws/Assembler.lean ====
section
/-! SUPPORT. What the shared operations of the assembler answer. -/

namespace Sys2Proof.Machine

/-- No bound is violated exactly when the value lies between them. -/
theorem violated_none_iff (lo hi v : Int) : violated lo hi v = none ↔ lo ≤ v ∧ v ≤ hi := by
  unfold violated
  split
  · simp; omega
  · split
    · simp; omega
    · simp; omega

theorem violated_below {lo hi v : Int} (h : v < lo) : violated lo hi v = some (.lower lo) := if_pos h

theorem violated_above {lo hi v : Int} (hlo : lo ≤ v) (h : hi < v) : violated lo hi v = some (.upper hi) := by
  unfold violated
  rw [if_neg (by omega), if_pos h]

/-- Assembling lines is assembling the first and then the rest, one line number on. -/
theorem assembleFrom_cons_ok {n : Nat} {raw : List Char} {rest : List (List Char)} {ws : List InstrWord} :
    assembleFrom n (raw :: rest) = .ok ws ↔
      ∃ w1 w2, assembleLine n raw = .ok w1 ∧ assembleFrom (n + 1) rest = .ok w2 ∧ ws = w1 ++ w2 := by
  simp only [assembleFrom]
  cases h1 : assembleLine n raw with
  | error e => simp
  | ok w1 =>
    cases h2 : assembleFrom (n + 1) rest with
    | error e => simp
    | ok w2 => simp [eq_comm]

end Sys2Proof.Machine
end

