-- ==== Sys2Proof/Laws/Booth.lean ====
section
/-! SUPPORT. Small laws of the multiplier's definition. -/

namespace Sys2Proof.Machine

theorem boothRun_zero (d : Addends) (A : BitVec 13) : boothRun d 0 A = A := rfl

theorem boothRun_succ (d : Addends) (n : Nat) (A : BitVec 13) : boothRun d (n + 1) A = boothRun d n (boothCycle d A) := rfl

/-- The three cycles written out (43_booth_multiplier.md R91). -/
theorem boothMul_eq (a b c : BitVec 6) :
    boothMul a b c =
      (boothCycle (boothAddends b c) (boothCycle (boothAddends b c) (boothCycle (boothAddends b c) (boothInit a)))).extractLsb'
        1 12 := rfl

/-- The bits of `asr2_13(S)`: the sign above, every other bit two places down (00_scope.md R8). -/
theorem asr2_getLsbD (S : BitVec 13) (k : Nat) (hk : k < 13) :
    (asr2 S).getLsbD k = if k < 11 then S.getLsbD (k + 2) else S.getLsbD 12 := by
  unfold asr2
  simp only [BitVec.getLsbD_append, BitVec.getLsbD_extractLsb']
  interval_cases k <;> simp

end Sys2Proof.Machine
end

