-- ==== Sys2Proof/Laws/Codec.lean ====
section
/-! SUPPORT. Small laws of the register indices and of the table look-ups. -/

namespace Sys2Proof

@[simp] theorem ofBits_bits (r : Reg) : Reg.ofBits r.bits = r := by cases r <;> rfl

@[simp] theorem bits_ofBits (b : BitVec 3) : (Reg.ofBits b).bits = b := by
  revert b; decide

theorem bits_injective {r q : Reg} (h : r.bits = q.bits) : r = q := by
  rw [← ofBits_bits r, h, ofBits_bits]

theorem mem_iName_all (m : IName) : m ∈ IName.all := by cases m <;> decide

theorem mem_rName_all (m : RName) : m ∈ RName.all := by cases m <;> decide

/-- A mnemonic found in the opcode table has that opcode. -/
theorem opc_of_iName {T : Tables} {o : BitVec 4} {m : IName} (h : T.iName o = some m) : T.opc m = o := by
  have := List.find?_some h
  simpa using this

/-- A mnemonic found in the funct table has that funct. -/
theorem fn_of_rName {T : Tables} {f : BitVec 3} {m : RName} (h : T.rName f = some m) : T.fn m = f := by
  have := List.find?_some h
  simpa using this

/-- In an injective opcode table a mnemonic is found under its own opcode. -/
theorem iName_opc {T : Tables} (hT : ∀ m n, T.opc m = T.opc n → m = n) (m : IName) : T.iName (T.opc m) = some m := by
  have hs : (T.iName (T.opc m)).isSome := by
    unfold Tables.iName
    rw [List.find?_isSome]
    exact ⟨m, mem_iName_all m, by simp⟩
  obtain ⟨n, hn⟩ := Option.isSome_iff_exists.1 hs
  rw [hn, hT n m (opc_of_iName hn)]

/-- In an injective funct table a mnemonic is found under its own funct. -/
theorem rName_fn {T : Tables} (hT : ∀ m n, T.fn m = T.fn n → m = n) (m : RName) : T.rName (T.fn m) = some m := by
  have hs : (T.rName (T.fn m)).isSome := by
    unfold Tables.rName
    rw [List.find?_isSome]
    exact ⟨m, mem_rName_all m, by simp⟩
  obtain ⟨n, hn⟩ := Option.isSome_iff_exists.1 hs
  rw [hn, hT n m (fn_of_rName hn)]

/-- The encoding of an instruction built from a mnemonic of `FN`. -/
theorem encodeWith_ofR (T : Tables) (m : RName) (rs rt rd : Reg) :
    encodeWith T (Instr.ofR m rs rt rd) = encodeR T m rs rt rd := by cases m <;> rfl

/-- The encoding of an instruction built from a mnemonic of `OPC`. -/
theorem encodeWith_ofI (T : Tables) (m : IName) (rs rt : Reg) (immed : Nat) :
    encodeWith T (Instr.ofI m rs rt immed) = encodeI T m rs rt immed := by cases m <;> rfl

/-- Every instruction is built from a mnemonic of one of the two tables. -/
theorem instr_shape (i : Instr) :
    (∃ m rs rt rd, i = Instr.ofR m rs rt rd) ∨ (∃ m rs rt immed, i = Instr.ofI m rs rt immed) := by
  cases i with
  | add rs rt rd => exact .inl ⟨.add, rs, rt, rd, rfl⟩
  | sub rs rt rd => exact .inl ⟨.sub, rs, rt, rd, rfl⟩
  | sll rs rt rd => exact .inl ⟨.sll, rs, rt, rd, rfl⟩
  | bth rs rt rd => exact .inl ⟨.bth, rs, rt, rd, rfl⟩
  | lui rs rt immed => exact .inr ⟨.lui, rs, rt, immed, rfl⟩
  | ori rs rt immed => exact .inr ⟨.ori, rs, rt, immed, rfl⟩
  | lw rs rt immed => exact .inr ⟨.lw, rs, rt, immed, rfl⟩
  | sw rs rt immed => exact .inr ⟨.sw, rs, rt, immed, rfl⟩
  | andi rs rt immed => exact .inr ⟨.andi, rs, rt, immed, rfl⟩
  | addi rs rt immed => exact .inr ⟨.addi, rs, rt, immed, rfl⟩

theorem ofR_wellFormed (m : RName) (rs rt rd : Reg) : (Instr.ofR m rs rt rd).wellFormed = true := by
  cases m <;> rfl

theorem ofI_wellFormed (m : IName) (rs rt : Reg) (immed : Nat) :
    (Instr.ofI m rs rt immed).wellFormed = immedInRange immed := by
  cases m <;> rfl

end Sys2Proof
end

