-- ==== Sys2Proof/Laws/Memory.lean ====
section
/-! SUPPORT. The laws of the program store: read after write, and that every operation keeps the canonical form. -/

namespace Sys2Proof.Machine

@[simp] theorem read_nil (a : Nat) : Memory.read [] a = Config.unlistedByte := rfl

theorem read_cons (k : Nat) (x : Byte) (m : Memory) (a : Nat) :
    Memory.read ((k, x) :: m) a = if k = a then x else m.read a := rfl

theorem read_of_all_above {m : Memory} {a : Nat} (h : m.all (fun c => decide (a < c.1)) = true) :
    m.read a = Config.unlistedByte := by
  induction m with
  | nil => rfl
  | cons c m ih =>
    obtain ⟨k, x⟩ := c
    simp only [List.all_cons, Bool.and_eq_true, decide_eq_true_eq] at h
    rw [read_cons, if_neg (by omega), ih h.2]

theorem read_consCell_same {m : Memory} {a : Nat} (v : Byte) (h : m.all (fun c => decide (a < c.1)) = true) :
    (Memory.consCell a v m).read a = v := by
  unfold Memory.consCell
  split
  · rename_i hv; rw [read_of_all_above h, hv]
  · simp [read_cons]

theorem read_consCell_of_ne (m : Memory) {a b : Nat} (v : Byte) (h : b ≠ a) :
    (Memory.consCell a v m).read b = m.read b := by
  unfold Memory.consCell
  split
  · rfl
  · rw [read_cons, if_neg (Ne.symm h)]

theorem wf_cons {k : Nat} {x : Byte} {m : Memory} :
    Memory.wf ((k, x) :: m) = true ↔
      x ≠ Config.unlistedByte ∧ m.all (fun c => decide (k < c.1)) = true ∧ m.wf = true := by
  simp [Memory.wf, and_assoc]

theorem all_above_mono {m : Memory} {a b : Nat} (hab : a ≤ b) (h : m.all (fun c => decide (b < c.1)) = true) :
    m.all (fun c => decide (a < c.1)) = true := by
  rw [List.all_eq_true] at *
  intro c hc
  have := h c hc
  simp only [decide_eq_true_eq] at *
  omega

/-- In a store in canonical form, a byte written is read back. -/
theorem read_write_same {m : Memory} (hm : m.wf = true) (a : Nat) (v : Byte) : (m.write a v).read a = v := by
  induction m with
  | nil => exact read_consCell_same v rfl
  | cons c m ih =>
    obtain ⟨k, x⟩ := c
    have h := wf_cons.1 hm
    simp only [Memory.write]
    split
    · apply read_consCell_same
      simp only [List.all_cons, Bool.and_eq_true, decide_eq_true_eq]
      exact ⟨by omega, all_above_mono (by omega) h.2.1⟩
    · split
      · subst_vars; exact read_consCell_same v h.2.1
      · rw [read_cons, if_neg (by omega), ih h.2.2]

/-- A write leaves every other byte alone, in any store. -/
theorem read_write_of_ne (m : Memory) {a b : Nat} (v : Byte) (h : b ≠ a) : (m.write a v).read b = m.read b := by
  induction m with
  | nil => exact read_consCell_of_ne [] v h
  | cons c m ih =>
    obtain ⟨k, x⟩ := c
    simp only [Memory.write]
    split
    · exact read_consCell_of_ne _ v h
    · split
      · rename_i hk; subst hk
        rw [read_consCell_of_ne _ v h, read_cons, if_neg (Ne.symm h)]
      · rw [read_cons, read_cons, ih]

theorem all_above_consCell {m : Memory} {a b : Nat} (v : Byte) (hab : b < a)
    (h : m.all (fun c => decide (b < c.1)) = true) : (Memory.consCell a v m).all (fun c => decide (b < c.1)) = true := by
  unfold Memory.consCell
  split
  · exact h
  · simp only [List.all_cons, Bool.and_eq_true, decide_eq_true_eq]; exact ⟨hab, h⟩

theorem all_above_write {m : Memory} {a b : Nat} (v : Byte) (hab : b < a)
    (h : m.all (fun c => decide (b < c.1)) = true) : (m.write a v).all (fun c => decide (b < c.1)) = true := by
  induction m with
  | nil => exact all_above_consCell v hab rfl
  | cons c m ih =>
    obtain ⟨k, x⟩ := c
    have h' := h
    simp only [List.all_cons, Bool.and_eq_true, decide_eq_true_eq] at h'
    simp only [Memory.write]
    split
    · exact all_above_consCell v hab h
    · split
      · exact all_above_consCell v hab h'.2
      · simp only [List.all_cons, Bool.and_eq_true, decide_eq_true_eq]; exact ⟨h'.1, ih h'.2⟩

theorem wf_consCell {m : Memory} {a : Nat} (v : Byte) (ha : m.all (fun c => decide (a < c.1)) = true)
    (hm : m.wf = true) : (Memory.consCell a v m).wf = true := by
  unfold Memory.consCell
  split
  · exact hm
  · rename_i hv; exact wf_cons.2 ⟨hv, ha, hm⟩

/-- A write keeps the canonical form. -/
theorem wf_write {m : Memory} (hm : m.wf = true) (a : Nat) (v : Byte) : (m.write a v).wf = true := by
  induction m with
  | nil => exact wf_consCell v rfl rfl
  | cons c m ih =>
    obtain ⟨k, x⟩ := c
    have h := wf_cons.1 hm
    simp only [Memory.write]
    split
    · apply wf_consCell v _ hm
      simp only [List.all_cons, Bool.and_eq_true, decide_eq_true_eq]
      exact ⟨by omega, all_above_mono (by omega) h.2.1⟩
    · split
      · subst_vars; exact wf_consCell v h.2.1 h.2.2
      · exact wf_cons.2 ⟨h.1, all_above_write v (by omega) h.2.1, ih h.2.2⟩

theorem wf_writeWord {m : Memory} (hm : m.wf = true) (i : Nat) (w : InstrWord) : (m.writeWord i w).wf = true :=
  wf_write (wf_write hm _ _) _ _

theorem wf_writeWords {m : Memory} (hm : m.wf = true) (i : Nat) (ws : List InstrWord) :
    (m.writeWords i ws).wf = true := by
  induction ws generalizing m i with
  | nil => exact hm
  | cons w ws ih => exact ih (wf_writeWord hm i w) (i + 1)

theorem wordOfBytes_bytes (w : InstrWord) : wordOfBytes (firstByte w) (secondByte w) = w := by
  unfold wordOfBytes firstByte secondByte
  apply BitVec.eq_of_getLsbD_eq
  intro k hk
  simp only [BitVec.getLsbD_append, BitVec.getLsbD_extractLsb']
  by_cases h : k < 8
  · simp [h]
  · have h8 : k - 8 < 8 := by omega
    have hs : 8 + (k - 8) = k := by omega
    simp [h, h8, hs]

/-- In a store in canonical form, a word placed is fetched back. -/
theorem readWord_writeWord_same {m : Memory} (hm : m.wf = true) (i : Nat) (w : InstrWord) :
    (m.writeWord i w).readWord i = w := by
  unfold Memory.readWord Memory.writeWord
  rw [read_write_of_ne _ _ (by omega), read_write_same hm, read_write_same (wf_write hm _ _), wordOfBytes_bytes]

/-- Placing a word leaves every other word alone. -/
theorem readWord_writeWord_of_ne (m : Memory) {i j : Nat} (w : InstrWord) (h : j ≠ i) :
    (m.writeWord i w).readWord j = m.readWord j := by
  unfold Memory.readWord Memory.writeWord
  rw [read_write_of_ne _ _ (by omega), read_write_of_ne _ _ (by omega), read_write_of_ne _ _ (by omega),
    read_write_of_ne _ _ (by omega)]

/-- Where no byte differs, no word does. -/
theorem readWord_congr {m m' : Memory} (h : ∀ a, m'.read a = m.read a) (i : Nat) : m'.readWord i = m.readWord i := by
  simp only [Memory.readWord, h]

theorem mem_consCell {c : Host.Cell} {a : Nat} {v : Byte} {m : Memory} (h : c ∈ Memory.consCell a v m) :
    c = (a, v) ∨ c ∈ m := by
  unfold Memory.consCell at h
  split at h
  · exact .inr h
  · simpa using h

/-- A write lists no address but the one written and those listed before. -/
theorem mem_write {c : Host.Cell} {m : Memory} {a : Nat} {v : Byte} (h : c ∈ m.write a v) : c = (a, v) ∨ c ∈ m := by
  induction m with
  | nil => exact mem_consCell h
  | cons d m ih =>
    obtain ⟨k, x⟩ := d
    simp only [Memory.write] at h
    split at h
    · exact mem_consCell h
    · split at h
      · exact (mem_consCell h).imp id (List.mem_cons_of_mem _)
      · rcases List.mem_cons.1 h with h | h
        · exact .inr (h ▸ List.mem_cons_self ..)
        · exact (ih h).imp id (List.mem_cons_of_mem _)

end Sys2Proof.Machine
end

