-- ==== Sys2Proof/Laws/PerInstr.lean ====
section
/-! SUPPORT. Statements made per instruction: the word of every instruction, well formed or not, lies in its own row of
spec/opcode_table.json (a word `w` is the instruction of a row when `w & mask = match`, 30_encoding.md section 8). -/

namespace Sys2Proof.Laws

/-- The `mask` column of the opcode table. -/
def rowMask : Instr → InstrWord
  | .add _ _ _ => 0xF007#16
  | .sub _ _ _ => 0xF007#16
  | .sll _ _ _ => 0xF007#16
  | .bth _ _ _ => 0xF007#16
  | .lui _ _ _ => 0xF000#16
  | .ori _ _ _ => 0xF000#16
  | .lw _ _ _ => 0xF000#16
  | .sw _ _ _ => 0xF000#16
  | .andi _ _ _ => 0xF000#16
  | .addi _ _ _ => 0xF000#16

/-- The `match` column of the opcode table. -/
def rowMatch : Instr → InstrWord
  | .add _ _ _ => 0x0000#16
  | .sub _ _ _ => 0x0001#16
  | .sll _ _ _ => 0x0002#16
  | .bth _ _ _ => 0x0003#16
  | .lui _ _ _ => 0x1000#16
  | .ori _ _ _ => 0x2000#16
  | .lw _ _ _ => 0x3000#16
  | .sw _ _ _ => 0x4000#16
  | .andi _ _ _ => 0x5000#16
  | .addi _ _ _ => 0x6000#16

/-- The word of `i` lies in the row of `i`. -/
def EncodedInItsRow.Statement (i : Instr) : Prop := encode i &&& rowMask i = rowMatch i

theorem packR_masked (rs rt rd f : BitVec 3) : packR rs rt rd f &&& 0xF007#16 = f.setWidth 16 := by
  apply BitVec.eq_of_getLsbD_eq
  intro k hk
  simp only [packR, BitVec.getLsbD_and, BitVec.getLsbD_append, BitVec.getLsbD_setWidth]
  interval_cases k <;> simp

theorem packI_masked (o : BitVec 4) (rs rt : BitVec 3) (m : BitVec 6) :
    packI o rs rt m &&& 0xF000#16 = o.setWidth 16 <<< 12 := by
  apply BitVec.eq_of_getLsbD_eq
  intro k hk
  simp only [packI, BitVec.getLsbD_and, BitVec.getLsbD_append, BitVec.getLsbD_shiftLeft, BitVec.getLsbD_setWidth]
  interval_cases k <;> simp

theorem EncodedInItsRow.add (rs rt rd : Reg) : EncodedInItsRow.Statement (.add rs rt rd) := packR_masked _ _ _ _
theorem EncodedInItsRow.sub (rs rt rd : Reg) : EncodedInItsRow.Statement (.sub rs rt rd) := packR_masked _ _ _ _
theorem EncodedInItsRow.sll (rs rt rd : Reg) : EncodedInItsRow.Statement (.sll rs rt rd) := packR_masked _ _ _ _
theorem EncodedInItsRow.bth (rs rt rd : Reg) : EncodedInItsRow.Statement (.bth rs rt rd) := packR_masked _ _ _ _
theorem EncodedInItsRow.lui (rs rt : Reg) (n : Nat) : EncodedInItsRow.Statement (.lui rs rt n) := packI_masked _ _ _ _
theorem EncodedInItsRow.ori (rs rt : Reg) (n : Nat) : EncodedInItsRow.Statement (.ori rs rt n) := packI_masked _ _ _ _
theorem EncodedInItsRow.lw (rs rt : Reg) (n : Nat) : EncodedInItsRow.Statement (.lw rs rt n) := packI_masked _ _ _ _
theorem EncodedInItsRow.sw (rs rt : Reg) (n : Nat) : EncodedInItsRow.Statement (.sw rs rt n) := packI_masked _ _ _ _
theorem EncodedInItsRow.andi (rs rt : Reg) (n : Nat) : EncodedInItsRow.Statement (.andi rs rt n) := packI_masked _ _ _ _
theorem EncodedInItsRow.addi (rs rt : Reg) (n : Nat) : EncodedInItsRow.Statement (.addi rs rt n) := packI_masked _ _ _ _

end Sys2Proof.Laws
end

