-- ==== Sys2Proof/Laws/State.lean ====
section
/-! SUPPORT. One lemma per field per update of the state, so that no proof unfolds a record update. -/

namespace Sys2Proof.Machine

variable (s : State) (r : Reg) (v : Int) (c : Cause) (w : InstrWord) (i : Instr)

@[simp] theorem advance_regs : (advance s).regs = s.regs := rfl
@[simp] theorem advance_pc : (advance s).pc = s.pc + 1 := rfl
@[simp] theorem advance_st : (advance s).st = s.st := rfl
@[simp] theorem advance_progLen : (advance s).progLen = s.progLen := rfl
@[simp] theorem advance_mem : (advance s).mem = s.mem := rfl

@[simp] theorem writeReg_regs : (writeReg r v s).regs = s.regs.set r (uBits Config.regw v) := rfl
@[simp] theorem writeReg_pc : (writeReg r v s).pc = s.pc := rfl
@[simp] theorem writeReg_st : (writeReg r v s).st = s.st := rfl
@[simp] theorem writeReg_progLen : (writeReg r v s).progLen = s.progLen := rfl
@[simp] theorem writeReg_mem : (writeReg r v s).mem = s.mem := rfl

@[simp] theorem writeAndAdvance_regs : (writeAndAdvance r v s).regs = s.regs.set r (uBits Config.regw v) := rfl
@[simp] theorem writeAndAdvance_pc : (writeAndAdvance r v s).pc = s.pc + 1 := rfl
@[simp] theorem writeAndAdvance_st : (writeAndAdvance r v s).st = s.st := rfl
@[simp] theorem writeAndAdvance_progLen : (writeAndAdvance r v s).progLen = s.progLen := rfl
@[simp] theorem writeAndAdvance_mem : (writeAndAdvance r v s).mem = s.mem := rfl

@[simp] theorem takeFault_regs : (takeFault c w s).regs = s.regs := rfl
@[simp] theorem takeFault_pc : (takeFault c w s).pc = s.pc := rfl
@[simp] theorem takeFault_st : (takeFault c w s).st = .fault c s.pc w := rfl
@[simp] theorem takeFault_progLen : (takeFault c w s).progLen = s.progLen := rfl
@[simp] theorem takeFault_mem : (takeFault c w s).mem = s.mem := rfl

@[simp] theorem raiseFault_regs : (raiseFault c i s).regs = s.regs := rfl
@[simp] theorem raiseFault_pc : (raiseFault c i s).pc = s.pc := rfl
@[simp] theorem raiseFault_st : (raiseFault c i s).st = .fault c s.pc (encode i) := rfl
@[simp] theorem raiseFault_progLen : (raiseFault c i s).progLen = s.progLen := rfl
@[simp] theorem raiseFault_mem : (raiseFault c i s).mem = s.mem := rfl

@[simp] theorem resetEvent_regs : (resetEvent s).regs = RegFile.reset := rfl
@[simp] theorem resetEvent_pc : (resetEvent s).pc = 0 := rfl
@[simp] theorem resetEvent_st : (resetEvent s).st = .run := rfl
@[simp] theorem resetEvent_progLen : (resetEvent s).progLen = s.progLen := rfl
@[simp] theorem resetEvent_mem : (resetEvent s).mem = s.mem := rfl

@[simp] theorem placeFetchWord_regs : (placeFetchWord w s).regs = s.regs := rfl
@[simp] theorem placeFetchWord_pc : (placeFetchWord w s).pc = s.pc := rfl
@[simp] theorem placeFetchWord_st : (placeFetchWord w s).st = .run := rfl
@[simp] theorem placeFetchWord_progLen : (placeFetchWord w s).progLen = max s.progLen (s.pc + 1) := rfl
@[simp] theorem placeFetchWord_mem : (placeFetchWord w s).mem = s.mem.writeWord s.pc w := rfl

variable (ws : List InstrWord)

@[simp] theorem loadProgram_regs : (loadProgram ws).regs = RegFile.reset := rfl
@[simp] theorem loadProgram_pc : (loadProgram ws).pc = 0 := rfl
@[simp] theorem loadProgram_st : (loadProgram ws).st = .run := rfl
@[simp] theorem loadProgram_progLen : (loadProgram ws).progLen = ws.length := rfl
@[simp] theorem loadProgram_mem : (loadProgram ws).mem = Memory.writeWords [] 0 ws := rfl

end Sys2Proof.Machine
end

