-- ==== Sys2Proof/Laws/Registers.lean ====
section
/-! SUPPORT. The laws of the register file and of `wrap`; what the two ways an instruction ends do. -/

namespace Sys2Proof.Machine

@[simp] theorem get_set_same (f : RegFile) (r : Reg) (p : Word) : (f.set r p).get r = p := by
  cases r <;> rfl

theorem get_set_of_ne (f : RegFile) {r q : Reg} (p : Word) (h : q ≠ r) : (f.set r p).get q = f.get q := by
  cases r <;> cases q <;> first | rfl | exact absurd rfl h

theorem regFile_ext {f g : RegFile} (h : ∀ r, f.get r = g.get r) : f = g := by
  have h0 := h .s0; have h1 := h .r1; have h2 := h .r2; have h3 := h .r3
  have h4 := h .r4; have h5 := h .r5; have h6 := h .r6; have h7 := h .r7
  cases f; cases g
  simp_all [RegFile.get]

@[simp] theorem reset_get (r : Reg) : RegFile.reset.get r = Config.resetReg := by
  cases r <;> rfl

theorem wrap_eq_wrapped12 (v : Int) : wrap v = wrapped12 v := by
  simp only [wrap, sRead, uBits, BitVec.toInt_ofInt, Int.bmod_def, wrapped12, Config.regw]
  norm_num
  split <;> omega

theorem sRead_range (p : Word) : -2048 ≤ sRead p ∧ sRead p ≤ 2047 := by
  have h1 := BitVec.le_toInt (x := p)
  have h2 := BitVec.toInt_lt (x := p)
  unfold sRead
  constructor <;> omega

/-- A value already in the registers' range is not changed by `wrap`. -/
theorem wrap_of_inRange {v : Int} (hlo : -2048 ≤ v) (hhi : v ≤ 2047) : wrap v = v := by
  rw [wrap_eq_wrapped12, wrapped12]; omega

theorem readReg_range (s : State) (r : Reg) : -2048 ≤ readReg s r ∧ readReg s r ≤ 2047 := sRead_range _

@[simp] theorem readReg_writeAndAdvance_same (s : State) (r : Reg) (v : Int) :
    readReg (writeAndAdvance r v s) r = wrap v := by
  simp [readReg, wrap]

theorem readReg_writeAndAdvance_of_ne (s : State) {r q : Reg} (v : Int) (h : q ≠ r) :
    readReg (writeAndAdvance r v s) q = readReg s q := by
  simp [readReg, get_set_of_ne _ _ h]

@[simp] theorem readReg_takeFault (s : State) (c : Cause) (w : InstrWord) (r : Reg) :
    readReg (takeFault c w s) r = readReg s r := rfl

@[simp] theorem readReg_raiseFault (s : State) (c : Cause) (i : Instr) (r : Reg) :
    readReg (raiseFault c i s) r = readReg s r := rfl

theorem sameStore_of_eq {s t : State} (hn : t.progLen = s.progLen) (hm : t.mem = s.mem) : SameStore s t :=
  ⟨hn, fun a => by rw [hm]⟩

/-- All that the completing end of an instruction does. -/
theorem writeAndAdvance_completes (s : State) (r : Reg) (v : Int) :
    Completes r (wrap v) s (writeAndAdvance r v s) :=
  ⟨readReg_writeAndAdvance_same s r v, fun _ h => readReg_writeAndAdvance_of_ne s v h, rfl, rfl, sameStore_of_eq rfl rfl⟩

/-- All that taking a fault does (60_exceptions.md R113). -/
theorem takeFault_faultsWith (s : State) (c : Cause) (w : InstrWord) : FaultsWith c w s (takeFault c w s) :=
  ⟨rfl, fun _ => rfl, rfl, sameStore_of_eq rfl rfl⟩

end Sys2Proof.Machine
end

