-- ==== Sys2Proof/Laws/Step.lean ====
section
/-! SUPPORT. Said once: everything `exec` and `step` can do. Later proofs cite these and unfold neither. -/

namespace Sys2Proof.Machine

/-- Every instruction answers a next state: it either writes one register and advances, or takes its own fault. -/
theorem exec_cases (i : Instr) (s : State) :
    (∃ r v, exec i s = .next (writeAndAdvance r v s)) ∨ (∃ c, exec i s = .next (raiseFault c i s)) := by
  cases i with
  | add rs rt rd => exact .inl ⟨rd, _, rfl⟩
  | sub rs rt rd => exact .inl ⟨rd, _, rfl⟩
  | sll rs rt rd =>
    by_cases h : readReg s rt < 0
    · exact .inr ⟨.shiftCountNegative, by simp only [exec, execSll, if_pos h]⟩
    · exact .inl ⟨rd, _, by simp only [exec, execSll, if_neg h]; rfl⟩
  | bth rs rt rd => exact .inl ⟨rd, _, rfl⟩
  | lui rs rt immed => exact .inl ⟨rt, _, rfl⟩
  | ori rs rt immed => exact .inl ⟨rt, _, rfl⟩
  | lw rs rt immed => exact .inr ⟨_, rfl⟩
  | sw rs rt immed => exact .inr ⟨_, rfl⟩
  | andi rs rt immed => exact .inr ⟨_, rfl⟩
  | addi rs rt immed => exact .inr ⟨_, rfl⟩

/-- What a step to a next state was: enabled, and either `exec` of the decoded instruction or the fault of an undecodable
word. -/
theorem step_next_cases {s t : State} (h : step s = .next t) :
    s.st = .run ∧ s.pc < s.progLen ∧
      ((∃ i, decode (fetch s) = .ok i ∧ exec i s = .next t) ∨
        (∃ e, decode (fetch s) = .error e ∧ t = takeFault (causeOfDecodeError e) (fetch s) s)) := by
  unfold step at h
  cases hst : s.st with
  | fault c k w => rw [hst] at h; cases h
  | run =>
    rw [hst] at h
    by_cases hpc : s.pc < s.progLen
    · refine ⟨rfl, hpc, ?_⟩
      rw [if_pos hpc] at h
      unfold runWord at h
      cases hd : decode (fetch s) with
      | ok i => rw [hd] at h; exact .inl ⟨i, rfl, h⟩
      | error e => rw [hd] at h; cases h; exact .inr ⟨e, rfl, rfl⟩
    · rw [if_neg hpc] at h
      by_cases he : s.pc = s.progLen
      · rw [if_pos he] at h; cases h
      · rw [if_neg he] at h; cases h

/-- The outcome of an enabled step. -/
theorem step_of_enabled {s : State} (hst : s.st = .run) (hpc : s.pc < s.progLen) : step s = runWord (fetch s) s := by
  unfold step
  rw [hst]
  exact if_pos hpc

@[simp] theorem stepN_zero (s : State) : stepN 0 s = .next s := rfl

/-- A run whose first step is to `t` goes on from `t`. -/
theorem stepN_succ_of_next {s t : State} (k : Nat) (h : step s = .next t) : stepN (k + 1) s = stepN k t := by
  simp only [stepN, h]

/-- A run to a next state is a step to a next state and a shorter run. -/
theorem stepN_succ_next {s u : State} {k : Nat} (h : stepN (k + 1) s = .next u) :
    ∃ t, step s = .next t ∧ stepN k t = .next u := by
  simp only [stepN] at h
  cases hs : step s with
  | next t => rw [hs] at h; exact ⟨t, rfl, h⟩
  | fault r => rw [hs] at h; cases h
  | refused r => rw [hs] at h; cases h

theorem core_run_succ (M : Host.Core) (k : Nat) (s : M.State) :
    M.run (k + 1) s =
      match M.step s with
      | .next s' => M.run k s'
      | .fault r => .fault r
      | .refused r => .refused r := by rfl

theorem core_run_of_next (M : Host.Core) (k : Nat) {s t : M.State} (h : M.step s = .next t) :
    M.run (k + 1) s = M.run k t := by rw [core_run_succ, h]

theorem core_run_of_fault (M : Host.Core) (k : Nat) {s : M.State} {r : M.Fault} (h : M.step s = .fault r) :
    M.run (k + 1) s = .fault r := by rw [core_run_succ, h]

theorem core_run_of_refused (M : Host.Core) (k : Nat) {s : M.State} {r : M.Refusal} (h : M.step s = .refused r) :
    M.run (k + 1) s = .refused r := by rw [core_run_succ, h]

/-- `stepN` is the host's run of the machine. -/
theorem stepN_eq_core_run : ∀ (k : Nat) (s : State), stepN k s = Host.Core.run Sys2Proof.core k s
  | 0, _ => rfl
  | k + 1, s => by
    cases hs : step s with
    | next t =>
      exact (stepN_succ_of_next k hs).trans
        ((stepN_eq_core_run k t).trans (core_run_of_next Sys2Proof.core k (s := s) (t := t) hs).symm)
    | fault r =>
      exact (show stepN (k + 1) s = .fault r by simp only [stepN, hs]).trans
        (core_run_of_fault Sys2Proof.core k (s := s) (r := r) hs).symm
    | refused r =>
      exact (show stepN (k + 1) s = .refused r by simp only [stepN, hs]).trans
        (core_run_of_refused Sys2Proof.core k (s := s) (r := r) hs).symm

end Sys2Proof.Machine
end

