-- ==== Sys2Proof/Tests/Slice0.lean ====
section
/-! SUPPORT. Tests with expected results from spec/ (95_test_vectors.md, 96_test_programs.md), the smoke tests of
WellFormed, and for every statement with hypotheses a theorem that shows them met together. -/

namespace Sys2Proof.Tests

open Sys2Proof Sys2Proof.Machine

/-! ### Helpers -/

/-- A running machine with a program, `pc` = 0, and the registers `x[1]`, `x[2]`, `x[3]`; the others are 0. -/
def demo (ws : List InstrWord) (a b c : Int) : State :=
  { loadProgram ws with regs := ⟨0#12, uBits 12 a, uBits 12 b, uBits 12 c, 0#12, 0#12, 0#12, 0#12⟩ }

/-- The value of a register after an outcome. -/
def regAfter (o : Host.Outcome State Fault Refusal) (r : Reg) : Option Int :=
  match o with
  | .next t => some (readReg t r)
  | .fault _ => none
  | .refused _ => none

/-- `st` and `pc` after an outcome. -/
def stAfter (o : Host.Outcome State Fault Refusal) : Option (Status × Nat) :=
  match o with
  | .next t => some (t.st, t.pc)
  | .fault _ => none
  | .refused _ => none

/-- The words of an assembly, `none` for an error. -/
def wordsOf (r : Except AsmError (List InstrWord)) : Option (List InstrWord) :=
  match r with
  | .ok ws => some ws
  | .error _ => none

/-- The error of an assembly. -/
def errorOf (r : Except AsmError (List InstrWord)) : Option AsmError :=
  match r with
  | .ok _ => none
  | .error e => some e

/-! ### WellFormed: one ill-formed term for each check, refused -/

theorem test_wf_refuses_lui_64 : (Instr.lui .s0 .r1 64).wellFormed = false := by decide
theorem test_wf_refuses_ori_64 : (Instr.ori .s0 .r1 64).wellFormed = false := by decide
theorem test_wf_refuses_lw_64 : (Instr.lw .s0 .r1 64).wellFormed = false := by decide
theorem test_wf_refuses_sw_64 : (Instr.sw .s0 .r1 64).wellFormed = false := by decide
theorem test_wf_refuses_andi_64 : (Instr.andi .s0 .r1 64).wellFormed = false := by decide
theorem test_wf_refuses_addi_64 : (Instr.addi .s0 .r1 64).wellFormed = false := by decide
theorem test_wf_admits_63 : (Instr.ori .r7 .r1 63).wellFormed = true := by decide

/-! ### Decoding: words written out bit by bit from 30_encoding.md section 8, one for each constructor -/

theorem test_decode_add : decode 0b0000_001_010_100_000#16 = .ok (.add .r1 .r2 .r4) := by rfl
theorem test_decode_sub : decode 0b0000_010_001_101_001#16 = .ok (.sub .r2 .r1 .r5) := by rfl
theorem test_decode_sll : decode 0b0000_100_110_111_010#16 = .ok (.sll .r4 .r6 .r7) := by rfl
theorem test_decode_bth : decode 0b0000_001_010_011_011#16 = .ok (.bth .r1 .r2 .r3) := by rfl
theorem test_decode_lui : decode 0b0001_000_110_111111#16 = .ok (.lui .s0 .r6 63) := by rfl
theorem test_decode_ori : decode 0b0010_111_001_001010#16 = .ok (.ori .r7 .r1 10) := by rfl
theorem test_decode_lw : decode 0b0011_000_001_000000#16 = .ok (.lw .s0 .r1 0) := by rfl
theorem test_decode_sw : decode 0b0100_000_001_000000#16 = .ok (.sw .s0 .r1 0) := by rfl
theorem test_decode_andi : decode 0b0101_000_001_000000#16 = .ok (.andi .s0 .r1 0) := by rfl
theorem test_decode_addi : decode 0b0110_000_001_111011#16 = .ok (.addi .s0 .r1 59) := by rfl
/-- Vectors E8 and E16. -/
theorem test_decode_unknown_funct : decode 0b0000_111_111_111_111#16 = .error .unknownFunct := by rfl
theorem test_decode_unknown_opcode : decode 0b0111_000_000_000000#16 = .error .unknownOpcode := by rfl
theorem test_encode_sub : encode (.sub .r2 .r1 .r5) = 0x0469#16 := by decide
theorem test_encode_ori : encode (.ori .r7 .r1 10) = 0x2E4A#16 := by decide
theorem test_decodeTableWord_bth : decodeTableWord 16 0x029B = some (.bth .r1 .r2 .r3) := by rfl
theorem test_decodeTableWord_refuses : decodeTableWord 16 0xF000 = none := by rfl

/-! ### Instructions -/

/-- Vectors A1, A2. -/
theorem test_add : regAfter (step (demo [0x02A0#16] 7 5 0)) .r4 = some 12 := by decide
theorem test_add_wraps : regAfter (step (demo [0x0298#16] 2047 1 0)) .r3 = some (-2048) := by decide
/-- Vectors A7, A11. -/
theorem test_sub : regAfter (step (demo [0x0469#16] 7 5 0)) .r5 = some (-2) := by decide
theorem test_sub_negates_least : regAfter (step (demo [0x0049#16] (-2048) 0 0)) .r1 = some (-2048) := by decide
/-- Vectors A21, A22. -/
theorem test_sll_large_count : regAfter (step (demo [0x029A#16] 1 2047 5)) .r3 = some 0 := by decide
theorem test_sll_negative_count :
    stAfter (step (demo [0x029A#16] 1 (-1) 5)) = some (.fault .shiftCountNegative 0 0x029A#16, 0) := by decide
/-- Vectors M1 and M5: the worked run, and the side operand of program P5. -/
theorem test_bth_scenario : regAfter (step (demo [0x029B#16] 10 3 3)) .r3 = some 30 := by decide
theorem test_bth_side_operand : regAfter (step (demo [0x02A3#16] 6 3 7)) .r4 = some 42 := by decide
/-- Vectors I1, I3. -/
theorem test_lui : regAfter (step (demo [0x1040#16] 999 0 0)) .r1 = some 0 := by decide
theorem test_lui_unsigned : regAfter (step (demo [0x107F#16] 0 0 0)) .r1 = some 63 := by decide
/-- Vectors I5 (with `r3` for `r4`), I8. -/
theorem test_ori_negative : regAfter (step (demo [0x20C3#16] 0 0 (-8))) .r3 = some (-5) := by decide
theorem test_ori : regAfter (step (demo [0x209F#16] 0 2016 0)) .r2 = some 2047 := by decide
/-- Vectors I16 to I19. -/
theorem test_lw : stAfter (step (demo [0x3040#16] 0 0 0)) = some (.fault .reservedOpcode 0 0x3040#16, 0) := by decide
theorem test_sw : stAfter (step (demo [0x4040#16] 0 0 0)) = some (.fault .reservedOpcode 0 0x4040#16, 0) := by decide
theorem test_andi : stAfter (step (demo [0x5040#16] 5 0 0)) = some (.fault .reservedOpcode 0 0x5040#16, 0) := by decide
theorem test_addi : stAfter (step (demo [0x6041#16] 9 0 0)) = some (.fault .reservedOpcode 0 0x6041#16, 0) := by decide
/-- Vectors F1, F2. -/
theorem test_unknown_opcode :
    stAfter (step (demo [0x7000#16] 0 0 0)) = some (.fault .unknownOpcode 0 0x7000#16, 0) := by decide
theorem test_unknown_funct :
    stAfter (step (demo [0x0004#16] 0 0 0)) = some (.fault .unknownFunct 0 0x0004#16, 0) := by decide
/-- Vector F7. -/
theorem test_empty_program_done : step (loadProgram []) = .fault .programDone := by rfl
/-- Rule R110. -/
theorem test_cause_codes : [Cause.unknownOpcode, .unknownFunct, .reservedOpcode, .shiftCountNegative].map Cause.code =
    [1, 2, 3, 4] := by decide

/-! ### The multiplier: vectors M9, M11, M12, M14, M17 -/

theorem test_booth_M9 : boothMul 0b000010#6 0b010001#6 0b010001#6 = 0b000001100010#12 := by decide
theorem test_booth_M11 : boothMul 0b100000#6 0b100000#6 0b100000#6 = 0b111111111111#12 := by decide
theorem test_booth_M12 : boothMul 0b011111#6 0b011111#6 0b011111#6 = 0b111111000001#12 := by decide
theorem test_booth_M14 : boothMul 0b010101#6 0b101000#6 0b101000#6 = 0b111000001000#12 := by decide
theorem test_booth_M17 : boothMul (low6 40) (low6 3) (low6 3) = 0b111110110111#12 := by decide

/-! ### `withFetchWord` -/

theorem test_withFetchWord_runs :
    regAfter (step (State.reset.withFetchWord 16 0x21BF)) .r6 = some 63 := by decide
theorem test_withFetchWord_wf : (State.reset.withFetchWord 16 0x21BF).mem.wf = true := by decide

/-! ### The assembler: vectors T2, T6, T8, T9, T13, T15, T16, T18 and rule R63's example -/

theorem test_asm_comment_and_commas :
    wordsOf (assembleLine 1 "add $r4, $r1, $r2   # sum".toList) = some [0x02A0#16] := by decide
theorem test_asm_hex : wordsOf (assembleLine 1 "ori $r1 0x1F".toList) = some [0x205F#16] := by decide
theorem test_asm_negative : wordsOf (assembleLine 1 "addi $r1 -32".toList) = some [0x6060#16] := by decide
theorem test_asm_upper_bound :
    errorOf (assembleText ['#', '\n', 'l', 'i', ' ', '$', 'r', '1', ' ', '4', '0', '9', '6']) =
      some (.rangeError 2 4096 (.upper 4095)) := by decide
theorem test_asm_li : wordsOf (assembleLine 1 "li $r6 4095".toList) = some [0x11BF#16, 0x21BF#16] := by decide
theorem test_asm_li_negative :
    errorOf (assembleLine 7 "li $r1 -1".toList) = some (.rangeError 7 (-1) (.lower 0)) := by decide
theorem test_asm_unknown_mnemonic :
    errorOf (assembleLine 3 "mul $r1 $r2 $r3".toList) = some (.parseError 3 "mul $r1 $r2 $r3".toList) := by decide
theorem test_asm_unknown_register : errorOf (assembleLine 1 "add $r1 $r2 $r8".toList) =
    some (.parseError 1 "add $r1 $r2 $r8".toList) := by decide
theorem test_object_line : objectLine 0x029B#16 = "0000001010011011".toList := by decide

/-! ### The hypotheses of the statements, met together -/

theorem witness_spec_tables_valid : specTables.Valid :=
  ⟨fun m n h => by cases m <;> cases n <;> first | rfl | exact absurd h (by decide),
    fun m => by cases m <;> decide,
    fun m n h => by cases m <;> cases n <;> first | rfl | exact absurd h (by decide)⟩

theorem witness_valid_tables_and_wellFormed :
    specTables.Valid ∧ (Instr.lui .r7 .r6 63).wellFormed = true ∧ (Instr.sll .r1 .r2 .r3).wellFormed = true :=
  ⟨witness_spec_tables_valid, by decide, by decide⟩

theorem witness_decoded_word : decodeWith specTables 0x2E4A#16 = .ok (.ori .r7 .r1 10) := by rfl

/-- PackingAndUnpackingAreInverse: a word of either format. -/
theorem witness_opcode_zero : (unpack 0x0FFF#16).opcode = 0#4 ∧ (unpack 0x1000#16).opcode ≠ 0#4 := by decide

/-- ProgramStoreIsImmutableInARun. -/
theorem witness_run : ∃ t, stepN 2 (demo [0x1045#16, 0x7000#16] 0 0 0) = .next t := ⟨_, by rfl⟩

/-- StepRunsTheDecodedInstruction, and every statement about an enabled step. -/
theorem witness_enabled_decodes :
    (demo [0x029A#16] 1 2 3).st = .run ∧ (demo [0x029A#16] 1 2 3).pc < (demo [0x029A#16] 1 2 3).progLen ∧
      decode ((demo [0x029A#16] 1 2 3).mem.readWord (demo [0x029A#16] 1 2 3).pc) = .ok (.sll .r1 .r2 .r3) :=
  ⟨rfl, by decide, by rfl⟩

/-- StopsAreNamed and EveryRunEndsDoneOrFaulted: the three kinds of state without a step. -/
theorem witness_no_step :
    (loadProgram []).Done ∧ (takeFault .unknownOpcode 0x7000#16 (demo [0x7000#16] 0 0 0)).Faulted ∧
      ({ State.reset with pc := 1 } : State).st = .run ∧
      ({ State.reset with pc := 1 } : State).progLen < ({ State.reset with pc := 1 } : State).pc :=
  ⟨⟨rfl, rfl⟩, ⟨_, _, _, rfl⟩, rfl, by decide⟩

/-- PcAdvancesByOneOrStaysOnAFault: a step to a running state, at the last word, and one to a `FAULT`. -/
theorem witness_pc_step :
    (∃ t, step (demo [0x1045#16] 0 0 0) = .next t ∧ t.st = .run) ∧
      ∃ t, step (demo [0x7000#16] 0 0 0) = .next t ∧ t.st ≠ .run :=
  ⟨⟨_, by rfl, by decide⟩, ⟨_, by rfl, by decide⟩⟩

/-- EveryRunEndsDoneOrFaulted: a state with `N` = 0 that is not `Done` before the reset event. -/
theorem witness_empty_program :
    (takeFault .unknownOpcode 0x7000#16 State.reset).progLen = 0 ∧
      (takeFault .unknownOpcode 0x7000#16 State.reset).st ≠ .run := by decide

/-- EveryRunEndsDoneOrFaulted: a running state in range, at both ends of `[0, N]`. -/
theorem witness_running_in_range :
    (loadProgram []).st = .run ∧ (loadProgram []).pc ≤ (loadProgram []).progLen ∧
      (demo [0x1045#16] 0 0 0).st = .run ∧ (demo [0x1045#16] 0 0 0).pc ≤ (demo [0x1045#16] 0 0 0).progLen :=
  ⟨rfl, by decide, rfl, by decide⟩

/-- UnknownOpcodeFaults, UnknownFunctFaults, ReservedOpcodeFaultsWhenReached: words at the ends of each class. -/
theorem witness_faulting_words :
    7 ≤ ((demo [0x7000#16] 0 0 0).mem.readWord 0).toNat / 4096 ∧
      ((demo [0x0004#16] 0 0 0).mem.readWord 0).toNat / 4096 = 0 ∧
      4 ≤ ((demo [0x0004#16] 0 0 0).mem.readWord 0).toNat % 8 ∧
      3 ≤ ((demo [0x3040#16] 0 0 0).mem.readWord 0).toNat / 4096 ∧
      ((demo [0x6FFF#16] 0 0 0).mem.readWord 0).toNat / 4096 ≤ 6 ∧
      (demo [0x6FFF#16] 0 0 0).st = .run ∧ (demo [0x6FFF#16] 0 0 0).pc < (demo [0x6FFF#16] 0 0 0).progLen := by decide

/-- FaultIsPreciseAndFinal. -/
theorem witness_fault_step : ∃ t, step (demo [0x029A#16] 1 (-1) 5) = .next t ∧
    t.st = .fault .shiftCountNegative 0 0x029A#16 := ⟨_, by rfl, by decide⟩

/-- LoadAndResetEventMeetTheInvariant and StepKeepsTheInvariant: a state that meets the invariant and has a step, and a `FAULT`
state that meets it. -/
theorem witness_invariant :
    (demo [0x7000#16] 0 0 0).Inv ∧ (∃ t, step (demo [0x7000#16] 0 0 0) = .next t ∧ t.Inv ∧ t.Faulted) :=
  ⟨⟨⟨by decide, by decide⟩, by decide, trivial⟩,
    ⟨takeFault .unknownOpcode 0x7000#16 (demo [0x7000#16] 0 0 0), by rfl,
      ⟨⟨by decide, by decide⟩, by decide, ⟨rfl, by decide, by decide, by decide⟩⟩, ⟨_, _, _, rfl⟩⟩⟩

/-- RegisterAccessesAreThoseOfTheTable: a fault, and two states that agree on the registers read and on no other. -/
theorem witness_register_accesses :
    (∃ t, exec (.lw .s0 .r1 0) (demo [] 1 2 3) = .next t ∧ t.Faulted) ∧
      (∀ r ∈ readsOf (.ori .s0 .r1 9), readReg (demo [] 1 2 3) r = readReg (demo [] 1 5 6) r) ∧
      ∃ t u, exec (.ori .s0 .r1 9) (demo [] 1 2 3) = .next t ∧ exec (.ori .s0 .r1 9) (demo [] 1 5 6) = .next u ∧
        t.st = .run :=
  ⟨⟨_, by rfl, ⟨_, _, _, rfl⟩⟩, by decide, ⟨_, _, by rfl, by rfl, by decide⟩⟩

/-- RegisterAccessesAreThoseOfTheTable: well-formed instructions on both sides of the two exceptions, and a step to a `FAULT`. -/
theorem witness_register_access_shows :
    (Instr.ori .s0 .r1 0).wellFormed = true ∧ (Instr.ori .s0 .r1 63).wellFormed = true ∧
      (WriteShows (.ori .s0 .r1 63) .r1 ∧ (Instr.sub .r1 .r1 .r2).wellFormed = true ∧ ReadShows (.sub .r1 .r2 .r2) .r1) ∧
      ∃ t, step (demo [0x029A#16] 1 (-1) 5) = .next t ∧ t.Faulted :=
  ⟨rfl, rfl,
    ⟨⟨demo [] 0 0 0, _, rfl, rfl, rfl, by decide⟩, rfl,
      ⟨demo [] 0 0 0, demo [] 1 0 0, _, _, rfl, rfl,
        fun q hq => by cases q <;> first | rfl | exact absurd rfl hq, rfl, rfl, rfl, rfl, .r2, by decide, by decide⟩⟩,
    ⟨_, by rfl, ⟨_, _, _, rfl⟩⟩⟩

/-- SllWritesTheWrappedShiftOrFaults, ArithmeticIsTwosComplementOnPatterns: the counts 0 and -1 where the clauses meet. -/
theorem witness_shift_counts : 0 ≤ readReg (demo [] 1 0 0) .r2 ∧ readReg (demo [] 1 (-1) 0) .r2 < 0 := by decide

/-- BthUsesOnlyTheLowSixBits: 40 and -24, 3 and 67, 7 and -57 agree modulo 64; -32 and 31 are the ends of the range. -/
theorem witness_low_six_bits :
    (readReg (demo [] 40 3 7) .r1 % 64 = readReg (demo [] (-24) 67 (-57)) .r1 % 64 ∧
      readReg (demo [] 40 3 7) .r2 % 64 = readReg (demo [] (-24) 67 (-57)) .r2 % 64 ∧
      readReg (demo [] 40 3 7) .r3 % 64 = readReg (demo [] (-24) 67 (-57)) .r3 % 64) ∧
      (∃ t u, exec (.bth .r1 .r2 .r4) (demo [] 40 3 7) = .next t ∧
        exec (.bth .r1 .r2 .r4) (demo [] (-24) 67 (-57)) = .next u) ∧
      (low6 (-32)).toInt = -32 ∧ (low6 31).toInt = 31 :=
  ⟨by decide, ⟨_, _, by rfl, by rfl⟩, by decide, by decide⟩

/-- RsOfLuiAndOriWordsIsIgnored. -/
theorem witness_store_in_form : State.reset.mem.wf = true ∧ (demo [0x029A#16, 0x7000#16] 0 0 0).mem.wf = true := by decide

/-- BthIsExactOnItsGuaranteedDomain: the corners of both clauses. -/
theorem witness_exact_domain :
    (0 ≤ readReg (demo [] 0 (-15) (-15)) .r1 ∧ -15 ≤ readReg (demo [] 0 (-15) (-15)) .r2 ∧
      readReg (demo [] 0 (-15) (-15)) .r3 % 64 = readReg (demo [] 0 (-15) (-15)) .r2 % 64) ∧
      (readReg (demo [] 31 16 80) .r1 ≤ 31 ∧ readReg (demo [] 31 16 80) .r2 ≤ 16 ∧
        readReg (demo [] 31 16 80) .r3 % 64 = readReg (demo [] 31 16 80) .r2 % 64) ∧
      (-13 ≤ (51#6).toInt ∧ (13#6).toInt ≤ 13) ∧
      regAfter (exec (.bth .r1 .r2 .r4) (demo [] 31 16 80)) .r4 = some 496 := by decide

/-- BthOfNegativeOperandIsOneLess: the corners, -32 by -32 (which overflows: vector M11), by -16 (M22) and by 15 (M21). -/
theorem witness_negative_operand :
    (-32 ≤ readReg (demo [] (-32) (-16) (-16)) .r1 ∧ readReg (demo [] (-1) 15 15) .r1 ≤ -1 ∧
      -32 ≤ readReg (demo [] (-32) (-32) (-32)) .r2 ∧ readReg (demo [] (-1) 31 31) .r2 ≤ 31 ∧
      readReg (demo [] (-32) (-16) (-16)) .r3 % 64 = readReg (demo [] (-32) (-16) (-16)) .r2 % 64) ∧
      regAfter (exec (.bth .r1 .r2 .r4) (demo [] (-32) (-16) (-16))) .r4 = some 511 ∧
      regAfter (exec (.bth .r1 .r2 .r4) (demo [] (-32) 15 15)) .r4 = some (-481) ∧
      regAfter (exec (.bth .r1 .r2 .r4) (demo [] (-32) (-32) (-32))) .r4 = some (-1) := by decide

/-- ProductIsTheClosedFormExactlyWithoutOverflow, BthOfNegativeOperandIsOneLess: `noOverflow` holds of M26 and fails of M9. -/
theorem witness_overflow :
    noOverflow 0b110011#6 0b110011#6 0b110011#6 ∧ ¬ noOverflow 0b000010#6 0b010001#6 0b010001#6 := by
  unfold noOverflow fits13
  decide

/-- SideOperandMattersExactlyForDoubledDigits: 6 has doubled digits (M4, M5), 5 has none (M2, M3), 30 has no single one. -/
theorem witness_doubled_digits :
    boothMul 6#6 3#6 3#6 ≠ boothMul 6#6 3#6 7#6 ∧ boothMul 5#6 3#6 3#6 = boothMul 5#6 3#6 7#6 ∧
      isDouble (boothDigit 6#6 1) = true ∧ (30#6).toInt ∈ [(-32 : Int), -26, -8, -2, 0, 6, 24, 30] := by decide

/-- LiLeavesTheOrOfItsHalves: a store that holds the two words, with the values 63 and 64 on either side of the last clause
(vectors I10, I11). -/
theorem witness_li_words :
    wordsOfStmt (.li .r1 63) = .ok [(demo [0x1040#16, 0x207F#16] 9 0 0).mem.readWord 0,
      (demo [0x1040#16, 0x207F#16] 9 0 0).mem.readWord 1] ∧
    wordsOfStmt (.li .r1 64) = .ok [(demo [0x1041#16, 0x2040#16] 9 0 0).mem.readWord 0,
      (demo [0x1041#16, 0x2040#16] 9 0 0).mem.readWord 1] ∧
    (demo [0x1041#16, 0x2040#16] 9 0 0).pc + 1 < (demo [0x1041#16, 0x2040#16] 9 0 0).progLen ∧
    (demo [0x1041#16, 0x2040#16] 9 0 0).st = .run ∧
    regAfter (stepN 2 (demo [0x1041#16, 0x2040#16] 9 0 0)) .r1 = some 1 :=
  ⟨by rfl, by rfl, by decide, by decide, by decide⟩

/-- LiExpandsToItsTwoHalves, StatementsAssembleToTheirInstruction: values at and beyond the ends of both ranges. -/
theorem witness_immediate_ranges :
    wordsOfStmt (.li .r1 4095) = .ok [0x107F#16, 0x207F#16] ∧ wordsOfStmt (.li .r1 4096) = .error (.upper 4095) ∧
    wordsOfStmt (.li .r1 (-1)) = .error (.lower 0) ∧ wordsOfStmt (.iType .addi .r1 31) = .ok [0x605F#16] ∧
    wordsOfStmt (.iType .addi .r1 32) = .error (.upper 31) ∧ wordsOfStmt (.iType .addi .r1 (-33)) = .error (.lower (-32)) :=
  ⟨by rfl, by rfl, by rfl, by rfl, by rfl, by rfl⟩

/-- AssemblyReportsTheFirstBadLine. -/
theorem witness_bad_line :
    assemble ["li $r1 1".toList, "addi $r1 40".toList] = .error (.rangeError 2 40 (.upper 31)) := by rfl

/-- AssembledProgramsNeverFailToDecode: a program that assembles, and a run of it. -/
theorem witness_assembled :
    assemble ["li $r1 9".toList, "addi $r1 1".toList] = .ok [0x1040#16, 0x2049#16, 0x6041#16] ∧
      ∃ t, stepN 3 { loadProgram [0x1040#16, 0x2049#16, 0x6041#16] with regs := RegFile.reset } = .next t :=
  ⟨by rfl, ⟨_, by rfl⟩⟩

/-- StepKeepsTheProgramDecodable, LoadedAndAssembledProgramsAreDecodable: a program whose words all decode, at its first word,
with a step (to a `FAULT` of another cause). -/
theorem witness_program_decodes :
    (∀ w ∈ [0x6041#16, 0x1040#16], ∃ i, decode w = .ok i) ∧ (demo [0x6041#16, 0x1040#16] 0 0 0).ProgramDecodes ∧
      ∃ t, step (demo [0x6041#16, 0x1040#16] 0 0 0) = .next t ∧ t.Faulted :=
  ⟨fun w hw => by
      simp only [List.mem_cons, List.not_mem_nil, or_false] at hw
      rcases hw with rfl | rfl <;> exact ⟨_, by rfl⟩,
    ⟨fun k hk => by
      have h2 : k < 2 := hk
      interval_cases k <;> exact ⟨_, by rfl⟩,
      fun _ _ => ⟨by simp [demo], by simp [demo]⟩⟩,
    ⟨_, by rfl, ⟨_, _, _, rfl⟩⟩⟩

end Sys2Proof.Tests
end

/-! ## Reset, `pc` and the register accesses (10_state.md) -/

namespace Sys2Proof.Machine

/-! ### Reset (R22, R130) -/

/-- Where the register file is the one after reset, every register reads 0. -/
theorem readReg_eq_zero_of_regs_reset {s : State} (h : s.regs = RegFile.reset) (r : Reg) : readReg s r = 0 := by
  simp [readReg, h, sRead]

/-- Settles O6: both the state after reset and the reset event set the register file of R22. -/
theorem resetLeavesTheResetValues : Obligations.ResetLeavesTheResetValues :=
  ⟨readReg_eq_zero_of_regs_reset rfl, rfl, rfl,
    fun s => ⟨readReg_eq_zero_of_regs_reset (resetEvent_regs s), resetEvent_pc s, resetEvent_st s,
      sameStore_of_eq (resetEvent_progLen s) (resetEvent_mem s)⟩⟩

/-! ### What a step does to `pc` (R15) -/

/-- A step to a next state starts in `RUN` below `N` and either completes or takes a fault. -/
theorem step_next_completes_or_faults {s t : State} (h : step s = .next t) :
    s.st = .run ∧ s.pc < s.progLen ∧ ((∃ r v, t = writeAndAdvance r v s) ∨ ∃ c w, t = takeFault c w s) := by
  obtain ⟨hst, hpc, ⟨i, -, hexec⟩ | ⟨e, -, rfl⟩⟩ := step_next_cases h
  · refine ⟨hst, hpc, ?_⟩
    obtain ⟨r, v, hi⟩ | ⟨c, hi⟩ := exec_cases i s <;> rw [hi] at hexec <;> cases hexec
    · exact .inl ⟨r, v, rfl⟩
    · exact .inr ⟨c, encode i, rfl⟩
  · exact ⟨hst, hpc, .inr ⟨_, _, rfl⟩⟩

/-- Settles O12: the two ends of a step, each with its `pc` and `st`. -/
theorem pcAdvancesByOneOrStaysOnAFault : Obligations.PcAdvancesByOneOrStaysOnAFault := by
  intro s t h
  obtain ⟨hst, hpc, ⟨r, v, rfl⟩ | ⟨c, w, rfl⟩⟩ := step_next_completes_or_faults h
  · exact ⟨fun _ => rfl, fun hne => absurd hst hne, hpc⟩
  · exact ⟨fun hrun => by simp at hrun, fun _ => rfl, hpc.le⟩

/-! ### The result of an instruction as a function of the registers (R13) -/

/-- The value an instruction writes, computed from the register values `x`; `none` when it faults. `exec_by_result` ties
this to `exec`. -/
def resultOf (x : Reg → Int) : Instr → Option Int
  | .add rs rt _ => some (x rs + x rt)
  | .sub rs rt _ => some (x rs - x rt)
  | .sll rs rt _ => if x rt < 0 then none else some (shiftLeftWrap (x rs) (x rt).toNat)
  | .bth rs rt _ => some (sRead (boothMul (low6 (x rs)) (low6 (x rt)) (low6 (x .r3))))
  | .lui _ _ immed => some immed
  | .ori _ rt immed => some (orInt (x rt) immed)
  | .lw _ _ _ => none
  | .sw _ _ _ => none
  | .andi _ _ _ => none
  | .addi _ _ _ => none

/-- Everything an instruction does: with a result it writes that value to its one register and advances, without one it
takes its fault. -/
theorem exec_by_result (i : Instr) (s : State) :
    (∃ rd v, writesOf i = [rd] ∧ resultOf (readReg s) i = some v ∧ exec i s = .next (writeAndAdvance rd v s)) ∨
      (resultOf (readReg s) i = none ∧ ∃ c, exec i s = .next (raiseFault c i s)) := by
  cases i with
  | add rs rt rd => exact .inl ⟨rd, _, rfl, rfl, rfl⟩
  | sub rs rt rd => exact .inl ⟨rd, _, rfl, rfl, rfl⟩
  | sll rs rt rd =>
    by_cases hneg : readReg s rt < 0
    · exact .inr ⟨if_pos hneg, .shiftCountNegative, if_pos hneg⟩
    · exact .inl ⟨rd, _, rfl, if_neg hneg, if_neg hneg⟩
  | bth rs rt rd => exact .inl ⟨rd, _, rfl, rfl, rfl⟩
  | lui rs rt immed => exact .inl ⟨rt, _, rfl, rfl, rfl⟩
  | ori rs rt immed => exact .inl ⟨rt, _, rfl, rfl, rfl⟩
  | lw rs rt immed => exact .inr ⟨rfl, _, rfl⟩
  | sw rs rt immed => exact .inr ⟨rfl, _, rfl⟩
  | andi rs rt immed => exact .inr ⟨rfl, _, rfl⟩
  | addi rs rt immed => exact .inr ⟨rfl, _, rfl⟩

/-- Each instruction writes at most one register. -/
theorem length_writesOf_le_one (i : Instr) : (writesOf i).length ≤ 1 := by
  cases i <;> simp [writesOf]

theorem writesOf_eq_singleton_of_mem {i : Instr} {r : Reg} (h : r ∈ writesOf i) : writesOf i = [r] := by
  have hlen : (writesOf i).length = 1 := le_antisymm (length_writesOf_le_one i) (List.length_pos_of_mem h)
  obtain ⟨rd, hrd⟩ := List.length_eq_one_iff.mp hlen
  rw [hrd, List.mem_singleton] at h
  rw [hrd, h]

/-- The result depends on the registers of `readsOf` alone. -/
theorem resultOf_congr {i : Instr} {x y : Reg → Int} (h : ∀ r ∈ readsOf i, x r = y r) : resultOf x i = resultOf y i := by
  cases i with
  | add rs rt rd | sub rs rt rd | sll rs rt rd =>
    simp only [resultOf, h rs (by simp [readsOf]), h rt (by simp [readsOf])]
  | bth rs rt rd =>
    simp only [resultOf, h rs (by simp [readsOf]), h rt (by simp [readsOf]), h .r3 (by simp [readsOf])]
  | ori rs rt immed => simp only [resultOf, h rt (by simp [readsOf])]
  | lui rs rt immed => rfl
  | lw rs rt immed | sw rs rt immed | andi rs rt immed | addi rs rt immed => rfl

/-- From `RUN`, an instruction stays in `RUN` exactly when it has a result, and then it wrote that result. -/
theorem exec_next_run_iff {i : Instr} {s t : State} (hst : s.st = .run) :
    exec i s = .next t ∧ t.st = .run ↔
      ∃ rd v, writesOf i = [rd] ∧ resultOf (readReg s) i = some v ∧ t = writeAndAdvance rd v s := by
  obtain ⟨rd, v, hw, hv, hexec⟩ | ⟨hnone, c, hexec⟩ := exec_by_result i s
  · rw [hexec, hw, hv]
    constructor
    · rintro ⟨h, -⟩
      cases h
      exact ⟨rd, v, rfl, rfl, rfl⟩
    · rintro ⟨rd', v', hrd, hv', rfl⟩
      cases hrd
      cases hv'
      exact ⟨rfl, hst⟩
  · rw [hexec, hnone]
    constructor
    · rintro ⟨h, hrun⟩
      cases h
      simp at hrun
    · rintro ⟨rd, v, -, h, -⟩
      cases h

/-- A register outside `writesOf` keeps its value. -/
theorem readReg_exec_of_notMem_writesOf {i : Instr} {s t : State} (h : exec i s = .next t) {r : Reg}
    (hr : r ∉ writesOf i) : readReg t r = readReg s r := by
  obtain ⟨rd, v, hw, -, hexec⟩ | ⟨-, c, hexec⟩ := exec_by_result i s <;> rw [hexec] at h <;> cases h
  · rw [hw, List.mem_singleton] at hr
    exact readReg_writeAndAdvance_of_ne s v hr
  · exact readReg_raiseFault s c i r

/-- An instruction that faults from `RUN` changes no register. -/
theorem readReg_exec_of_faulted {i : Instr} {s t : State} (h : exec i s = .next t) (hf : t.Faulted)
    (hst : s.st = .run) (r : Reg) : readReg t r = readReg s r := by
  obtain ⟨rd, v, hexec⟩ | ⟨c, hexec⟩ := exec_cases i s <;> rw [hexec] at h <;> cases h
  · obtain ⟨cause, index, word, hfault⟩ := hf
    rw [writeAndAdvance_st, hst] at hfault
    cases hfault
  · exact readReg_raiseFault s c i r

/-- A step to a `FAULT` changes no register. -/
theorem readReg_step_of_faulted {s t : State} (h : step s = .next t) (hf : t.Faulted) (r : Reg) :
    readReg t r = readReg s r := by
  obtain ⟨hst, -, ⟨i, -, hexec⟩ | ⟨e, -, rfl⟩⟩ := step_next_cases h
  · exact readReg_exec_of_faulted hexec hf hst r
  · exact readReg_takeFault s _ _ r

/-- Running states that agree on `readsOf i` complete together and write the same value. -/
theorem exec_agrees_of_reads_agree {i : Instr} {s u s' u' : State} (hs : s.st = .run) (hu : u.st = .run)
    (hreads : ∀ r ∈ readsOf i, readReg s r = readReg u r) (hexecs : exec i s = .next s') (hexecu : exec i u = .next u')
    (hs' : s'.st = .run) : u'.st = .run ∧ ∀ r ∈ writesOf i, readReg s' r = readReg u' r := by
  obtain ⟨rd, v, hw, hv, rfl⟩ := (exec_next_run_iff hs).mp ⟨hexecs, hs'⟩
  obtain ⟨hexecu', hrun⟩ := (exec_next_run_iff hu).mpr ⟨rd, v, hw, resultOf_congr hreads ▸ hv, rfl⟩
  rw [hexecu'] at hexecu
  cases hexecu
  refine ⟨hrun, fun r hr => ?_⟩
  rw [hw, List.mem_singleton] at hr
  simp [hr]

/-! ### Which accesses show -/

/-- A write shows when some running state has a result other than the register's value. -/
theorem writeShows_iff {i : Instr} {r : Reg} :
    WriteShows i r ↔
      ∃ s v, s.st = .run ∧ writesOf i = [r] ∧ resultOf (readReg s) i = some v ∧ wrap v ≠ readReg s r := by
  constructor
  · rintro ⟨s, t, hst, hexec, hrun, hne⟩
    obtain ⟨rd, v, hw, hv, rfl⟩ := (exec_next_run_iff hst).mp ⟨hexec, hrun⟩
    have hr : r = rd := by
      by_contra h
      exact hne (readReg_writeAndAdvance_of_ne s v h)
    subst hr
    exact ⟨s, v, hst, hw, hv, by simpa using hne⟩
  · rintro ⟨s, v, hst, hw, hv, hne⟩
    obtain ⟨hexec, hrun⟩ := (exec_next_run_iff hst).mpr ⟨r, v, hw, hv, rfl⟩
    exact ⟨s, _, hst, hexec, hrun, by simpa using hne⟩

/-- A read shows when two running states that differ in that register alone have results with different patterns. -/
theorem readShows_iff {i : Instr} {r : Reg} :
    ReadShows i r ↔
      ∃ s u v w, s.st = .run ∧ u.st = .run ∧ (∀ q, q ≠ r → readReg s q = readReg u q) ∧
        resultOf (readReg s) i = some v ∧ resultOf (readReg u) i = some w ∧ wrap v ≠ wrap w := by
  constructor
  · rintro ⟨s, u, s', u', hs, hu, hagree, hexecs, hexecu, hs', hu', q, hq, hne⟩
    obtain ⟨rd, v, hw, hv, rfl⟩ := (exec_next_run_iff hs).mp ⟨hexecs, hs'⟩
    obtain ⟨rd', w, hw', hv', rfl⟩ := (exec_next_run_iff hu).mp ⟨hexecu, hu'⟩
    rw [hw, List.mem_singleton] at hq
    obtain rfl : rd = rd' := by simpa [hw] using hw'
    subst hq
    exact ⟨s, u, v, w, hs, hu, hagree, hv, hv', by simpa using hne⟩
  · rintro ⟨s, u, v, w, hs, hu, hagree, hv, hv', hne⟩
    obtain ⟨rd, -, hw, -⟩ | ⟨hnone, -⟩ := exec_by_result i s
    · obtain ⟨hexecs, hs'⟩ := (exec_next_run_iff hs).mpr ⟨rd, v, hw, hv, rfl⟩
      obtain ⟨hexecu, hu'⟩ := (exec_next_run_iff hu).mpr ⟨rd, w, hw, hv', rfl⟩
      exact ⟨s, u, _, _, hs, hu, hagree, hexecs, hexecu, hs', hu', rd, by simp [hw], by simpa using hne⟩
    · rw [hnone] at hv
      cases hv

/-- `ori` with immediate 0 writes back what it read. -/
theorem orInt_sRead_zero (p : Word) : orInt (sRead p) 0 = sRead p := by
  simp [orInt, uBits, sRead]

/-- A running machine with the given register patterns. -/
def runningWith (x : Reg → Word) : State :=
  { State.reset with regs := ⟨x .s0, x .r1, x .r2, x .r3, x .r4, x .r5, x .r6, x .r7⟩ }

@[simp] theorem readReg_runningWith (x : Reg → Word) (r : Reg) : readReg (runningWith x) r = sRead (x r) := by
  cases r <;> rfl

/-- The state that makes every write visible: no result from it is 64, but for `ori` with immediate 0. -/
def writeProbe : State := runningWith fun _ => 64#12

@[simp] theorem readReg_writeProbe (r : Reg) : readReg writeProbe r = 64 := readReg_runningWith _ r

/-- Setting bits of an immediate other than 0 in 64 changes it. -/
theorem orInt_sixtyFour_ne {immed : Nat} (h : immed < 64) (h0 : immed ≠ 0) : orInt 64 immed ≠ 64 := by
  have key : ∀ n : Fin 64, n.val ≠ 0 → orInt 64 (n.val : Nat) ≠ 64 := by decide
  exact key ⟨immed, h⟩ h0

/-- The value of an OR is a register value already. -/
theorem wrap_orInt (a b : Int) : wrap (orInt a b) = orInt a b := by
  simp [wrap, orInt, uBits, sRead]

/-- From `writeProbe` every instruction that writes has a result other than 64, but for `ori` with immediate 0. -/
theorem resultOf_writeProbe_ne {i : Instr} {r : Reg} (hwf : i.wellFormed = true) (hr : r ∈ writesOf i)
    (hori : ∀ rs rt, i ≠ .ori rs rt 0) :
    ∃ v, resultOf (readReg writeProbe) i = some v ∧ wrap v ≠ 64 := by
  cases i with
  | add rs rt rd => exact ⟨64 + 64, by simp [resultOf], by decide⟩
  | sub rs rt rd => exact ⟨0, by simp [resultOf], by decide⟩
  | sll rs rt rd => exact ⟨shiftLeftWrap 64 64, by simp [resultOf], by decide⟩
  | bth rs rt rd => exact ⟨sRead (boothMul (low6 64) (low6 64) (low6 64)), by simp [resultOf], by decide⟩
  | lui rs rt immed =>
    have himmed : immed < 64 := of_decide_eq_true hwf
    refine ⟨immed, rfl, ?_⟩
    rw [wrap_of_inRange] <;> omega
  | ori rs rt immed =>
    have himmed : immed < 64 := of_decide_eq_true hwf
    have hne : immed ≠ 0 := by
      rintro rfl
      exact hori rs rt rfl
    refine ⟨orInt 64 immed, by simp [resultOf], ?_⟩
    rw [wrap_orInt]
    exact orInt_sixtyFour_ne himmed hne
  | lw rs rt immed | sw rs rt immed | andi rs rt immed | addi rs rt immed => cases hr

/-- What a register of `readProbe` holds: 2, or 65 when it is a changed one. With 2 a shift count is small and `bth` has a
single and a doubled digit (43_booth_multiplier.md R100); 65 differs from 2 above the immediate of an `ori`. -/
def probeValue (changed : Bool) : Int := if changed then 65 else 2

/-- The states that make every read visible: the registers told by `changed` hold 65 and the others 2. -/
def readProbe (changed : Reg → Bool) : State := runningWith fun q => if changed q then 65#12 else 2#12

theorem readReg_readProbe (changed : Reg → Bool) (q : Reg) :
    readReg (readProbe changed) q = probeValue (changed q) := by
  rw [readProbe, readReg_runningWith]
  cases changed q <;> rfl

theorem add_probeValue_ne : ∀ a b : Bool, (a || b) = true →
    wrap (probeValue false + probeValue false) ≠ wrap (probeValue a + probeValue b) := by decide

theorem sub_probeValue_ne : ∀ a b : Bool, a ≠ b →
    wrap (probeValue false - probeValue false) ≠ wrap (probeValue a - probeValue b) := by decide

theorem probeValue_nonneg : ∀ a : Bool, ¬ probeValue a < 0 := by decide

theorem shiftLeftWrap_probeValue_ne : ∀ a b : Bool, (a || b) = true →
    wrap (shiftLeftWrap (probeValue false) (probeValue false).toNat) ≠
      wrap (shiftLeftWrap (probeValue a) (probeValue b).toNat) := by decide

theorem boothMul_probeValue_ne : ∀ a b c : Bool, (a || b || c) = true →
    wrap (sRead (boothMul (low6 (probeValue false)) (low6 (probeValue false)) (low6 (probeValue false)))) ≠
      wrap (sRead (boothMul (low6 (probeValue a)) (low6 (probeValue b)) (low6 (probeValue c)))) := by decide

/-- Bit 6 of 65 is above every immediate. -/
theorem orInt_probeValue_ne {immed : Nat} (h : immed < 64) :
    orInt (probeValue false) immed ≠ orInt (probeValue true) immed := by
  have key : ∀ n : Fin 64, orInt (probeValue false) (n.val : Nat) ≠ orInt (probeValue true) (n.val : Nat) := by decide
  exact key ⟨immed, h⟩

/-- Changing 2 to 65 in any one register that `i` reads changes the pattern of its result, but for `sub` of a register
with itself: each case is a fact about which of its operands are the changed register. -/
theorem resultOf_readProbe_ne {i : Instr} {r : Reg} (hwf : i.wellFormed = true) (hr : r ∈ readsOf i)
    (hsub : ∀ q rd, i ≠ .sub q q rd) :
    ∃ v w, resultOf (readReg (readProbe fun _ => false)) i = some v ∧
      resultOf (readReg (readProbe fun q => decide (r = q))) i = some w ∧ wrap v ≠ wrap w := by
  cases i with
  | add rs rt rd =>
    refine ⟨_, _, rfl, rfl, ?_⟩
    simp only [readReg_readProbe]
    exact add_probeValue_ne _ _ (by simpa [readsOf] using hr)
  | sub rs rt rd =>
    have hne : rs ≠ rt := by
      rintro rfl
      exact hsub rs rd rfl
    refine ⟨_, _, rfl, rfl, ?_⟩
    simp only [readReg_readProbe]
    refine sub_probeValue_ne _ _ ?_
    obtain rfl | rfl : r = rs ∨ r = rt := by simpa [readsOf] using hr
    · simp [hne]
    · simp [hne.symm]
  | sll rs rt rd =>
    simp only [resultOf, readReg_readProbe, if_neg (probeValue_nonneg _)]
    exact ⟨_, _, rfl, rfl, shiftLeftWrap_probeValue_ne _ _ (by simpa [readsOf] using hr)⟩
  | bth rs rt rd =>
    refine ⟨_, _, rfl, rfl, ?_⟩
    simp only [readReg_readProbe]
    exact boothMul_probeValue_ne _ _ _ (by simpa [readsOf, or_assoc] using hr)
  | ori rs rt immed =>
    have himmed : immed < 64 := of_decide_eq_true hwf
    obtain rfl : r = rt := by simpa [readsOf] using hr
    refine ⟨_, _, rfl, rfl, ?_⟩
    simp only [readReg_readProbe, wrap_orInt, decide_true]
    exact orInt_probeValue_ne himmed
  | lui rs rt immed => cases hr
  | lw rs rt immed | sw rs rt immed | andi rs rt immed | addi rs rt immed => cases hr

/-- The write of an instruction shows, but for `ori` with immediate 0. -/
theorem writeShows_iff_mem_writesOf {i : Instr} (r : Reg) (hwf : i.wellFormed = true) :
    WriteShows i r ↔ r ∈ writesOf i ∧ ∀ rs rt, i ≠ .ori rs rt 0 := by
  rw [writeShows_iff]
  constructor
  · rintro ⟨s, v, -, hw, hv, hne⟩
    refine ⟨by simp [hw], ?_⟩
    rintro rs rt rfl
    cases hw
    cases hv
    exact hne ((wrap_orInt _ _).trans (orInt_sRead_zero _))
  · rintro ⟨hr, hori⟩
    obtain ⟨v, hv, hne⟩ := resultOf_writeProbe_ne hwf hr hori
    exact ⟨writeProbe, v, rfl, writesOf_eq_singleton_of_mem hr, hv, by rwa [readReg_writeProbe]⟩

/-- Every read of an instruction shows, but for `sub` of a register with itself. -/
theorem readShows_iff_mem_readsOf {i : Instr} (r : Reg) (hwf : i.wellFormed = true) :
    ReadShows i r ↔ r ∈ readsOf i ∧ ∀ q rd, i ≠ .sub q q rd := by
  rw [readShows_iff]
  constructor
  · rintro ⟨s, u, v, w, -, -, hagree, hv, hw, hne⟩
    constructor
    · by_contra hr
      have hsame : resultOf (readReg s) i = resultOf (readReg u) i :=
        resultOf_congr fun q hq => hagree q fun hqr => hr (hqr ▸ hq)
      rw [hv, hw, Option.some_inj] at hsame
      exact hne (congrArg wrap hsame)
    · rintro q rd rfl
      simp only [resultOf, sub_self, Option.some_inj] at hv hw
      exact hne (by rw [← hv, ← hw])
  · rintro ⟨hr, hsub⟩
    obtain ⟨v, w, hv, hw, hne⟩ := resultOf_readProbe_ne hwf hr hsub
    refine ⟨_, _, v, w, rfl, rfl, fun q hq => ?_, hv, hw, hne⟩
    simp [readReg_readProbe, hq.symm]

/-- Settles O23: the frames and the agreement from `exec_by_result`, the two equivalences from the probe states. -/
theorem registerAccessesAreThoseOfTheTable : Obligations.RegisterAccessesAreThoseOfTheTable :=
  ⟨length_writesOf_le_one,
    fun _ _ _ h => ⟨fun _ => readReg_exec_of_notMem_writesOf h, readReg_exec_of_faulted h⟩,
    fun _ _ => readReg_step_of_faulted,
    fun _ _ _ _ _ => exec_agrees_of_reads_agree,
    fun _ r hwf => ⟨writeShows_iff_mem_writesOf r hwf, readShows_iff_mem_readsOf r hwf⟩⟩

end Sys2Proof.Machine

/-! ## The program store along a run (20_memory.md) -/

namespace Sys2Proof.Machine

/-- What every step keeps, every run keeps. -/
theorem stepN_induction {P : State → Prop} (hstep : ∀ s t, step s = .next t → P s → P t) :
    ∀ {k : Nat} {s u : State}, stepN k s = .next u → P s → P u
  | 0, s, u, h, hs => by
    rw [stepN_zero] at h
    cases h
    exact hs
  | k + 1, s, u, h, hs => by
    obtain ⟨t, hst, htu⟩ := stepN_succ_next h
    exact stepN_induction hstep htu (hstep s t hst hs)

/-- Neither end of a step touches `N` or the store. -/
theorem step_progLen_mem {s t : State} (h : step s = .next t) : t.progLen = s.progLen ∧ t.mem = s.mem := by
  obtain ⟨-, -, ⟨r, v, rfl⟩ | ⟨c, w, rfl⟩⟩ := step_next_completes_or_faults h
  · exact ⟨writeAndAdvance_progLen s r v, writeAndAdvance_mem s r v⟩
  · exact ⟨takeFault_progLen s c w, takeFault_mem s c w⟩

/-- A run keeps `N` and the store cell for cell, which is more than R40's reading of it byte by byte. -/
theorem stepN_progLen_mem {k : Nat} {s t : State} (h : stepN k s = .next t) :
    t.progLen = s.progLen ∧ t.mem = s.mem := by
  refine stepN_induction (P := fun u => u.progLen = s.progLen ∧ u.mem = s.mem) ?_ h ⟨rfl, rfl⟩
  rintro u v huv ⟨hn, hm⟩
  obtain ⟨hn', hm'⟩ := step_progLen_mem huv
  exact ⟨hn'.trans hn, hm'.trans hm⟩

/-- Settles O8: the store of the last state is the store of the first. -/
theorem programStoreIsImmutableInARun : Obligations.ProgramStoreIsImmutableInARun := by
  intro k s t h
  obtain ⟨hn, hm⟩ := stepN_progLen_mem h
  exact ⟨sameStore_of_eq hn hm, fun i => by rw [hm]⟩

end Sys2Proof.Machine

/-! ## Packing of the fields (30_encoding.md R48 to R50) -/

namespace Sys2Proof.Laws

/-- Concatenation as a number: the left part counts in units of the right part's size. -/
theorem toNat_append_eq_mul_add {m n : Nat} (x : BitVec m) (y : BitVec n) :
    (x ++ y).toNat = x.toNat * 2 ^ n + y.toNat := by
  rw [BitVec.toNat_append, ← Nat.shiftLeft_add_eq_or_of_lt y.isLt, Nat.shiftLeft_eq]

/-! ### The I format -/

theorem packI_toNat (opcode : BitVec 4) (rs rt : BitVec 3) (immed : BitVec 6) :
    (packI opcode rs rt immed).toNat = opcode.toNat * 4096 + rs.toNat * 512 + rt.toNat * 64 + immed.toNat := by
  simp only [packI, toNat_append_eq_mul_add]
  omega

@[simp] theorem unpack_packI_immed (opcode : BitVec 4) (rs rt : BitVec 3) (immed : BitVec 6) :
    (unpack (packI opcode rs rt immed)).immed = immed :=
  BitVec.extractLsb'_append_eq_right

/-- Above the immediate, a field of the packed word is a field of the ten bits `opcode ++ rs ++ rt`. -/
theorem extractLsb'_packI_of_le (opcode : BitVec 4) (rs rt : BitVec 3) (immed : BitVec 6) {start len : Nat}
    (h : 6 ≤ start) :
    (packI opcode rs rt immed).extractLsb' start len = (opcode ++ rs ++ rt).extractLsb' (start - 6) len :=
  BitVec.extractLsb'_append_eq_of_le h

@[simp] theorem unpack_packI_rt (opcode : BitVec 4) (rs rt : BitVec 3) (immed : BitVec 6) :
    (unpack (packI opcode rs rt immed)).rt = rt := calc
  (packI opcode rs rt immed).extractLsb' 6 3
  _ = (opcode ++ rs ++ rt).extractLsb' 0 3 := extractLsb'_packI_of_le _ _ _ _ (by decide)
  _ = rt := BitVec.extractLsb'_append_eq_right

@[simp] theorem unpack_packI_rs (opcode : BitVec 4) (rs rt : BitVec 3) (immed : BitVec 6) :
    (unpack (packI opcode rs rt immed)).rs = rs := calc
  (packI opcode rs rt immed).extractLsb' 9 3
  _ = (opcode ++ rs ++ rt).extractLsb' 3 3 := extractLsb'_packI_of_le _ _ _ _ (by decide)
  _ = (opcode ++ rs).extractLsb' 0 3 := BitVec.extractLsb'_append_eq_of_le (by decide)
  _ = rs := BitVec.extractLsb'_append_eq_right

@[simp] theorem unpack_packI_opcode (opcode : BitVec 4) (rs rt : BitVec 3) (immed : BitVec 6) :
    (unpack (packI opcode rs rt immed)).opcode = opcode := calc
  (packI opcode rs rt immed).extractLsb' 12 4
  _ = (opcode ++ rs ++ rt).extractLsb' 6 4 := extractLsb'_packI_of_le _ _ _ _ (by decide)
  _ = (opcode ++ rs).extractLsb' 3 4 := BitVec.extractLsb'_append_eq_of_le (by decide)
  _ = opcode := BitVec.extractLsb'_append_eq_left

/-- The fields `opcode`, `rs`, `rt`, `immed` tile the word, so joining neighbours ends with all of it. -/
theorem packI_unpack (w : InstrWord) :
    packI (unpack w).opcode (unpack w).rs (unpack w).rt (unpack w).immed = w := by
  have hrs : w.extractLsb' 12 4 ++ w.extractLsb' 9 3 = w.extractLsb' 9 7 :=
    BitVec.extractLsb'_append_extractLsb'_eq_extractLsb' rfl
  have hrt : w.extractLsb' 9 7 ++ w.extractLsb' 6 3 = w.extractLsb' 6 10 :=
    BitVec.extractLsb'_append_extractLsb'_eq_extractLsb' rfl
  have himmed : w.extractLsb' 6 10 ++ w.extractLsb' 0 6 = w :=
    BitVec.extractLsb'_append_extractLsb'
  simp only [packI, unpack, hrs, hrt, himmed]

/-! ### The R format: `rd` and `funct` are the halves of the immediate -/

/-- An R word is the word of opcode 0 whose immediate is `rd ++ funct`. -/
theorem packR_eq_packI (rs rt rd funct : BitVec 3) : packR rs rt rd funct = packI 0#4 rs rt (rd ++ funct) :=
  BitVec.append_assoc

theorem unpack_rd_eq (w : InstrWord) : (unpack w).rd = (unpack w).immed.extractLsb' 3 3 :=
  (BitVec.extractLsb'_extractLsb'_of_le (by decide)).symm

theorem unpack_funct_eq (w : InstrWord) : (unpack w).funct = (unpack w).immed.extractLsb' 0 3 :=
  (BitVec.extractLsb'_extractLsb'_of_le (by decide)).symm

theorem unpack_rd_append_funct (w : InstrWord) : (unpack w).rd ++ (unpack w).funct = (unpack w).immed :=
  BitVec.extractLsb'_append_extractLsb'_eq_extractLsb' rfl

theorem packR_toNat (rs rt rd funct : BitVec 3) :
    (packR rs rt rd funct).toNat = rs.toNat * 512 + rt.toNat * 64 + rd.toNat * 8 + funct.toNat := by
  simp only [packR_eq_packI, packI_toNat, toNat_append_eq_mul_add, BitVec.toNat_ofNat]
  omega

@[simp] theorem unpack_packR_opcode (rs rt rd funct : BitVec 3) : (unpack (packR rs rt rd funct)).opcode = 0#4 := by
  rw [packR_eq_packI, unpack_packI_opcode]

@[simp] theorem unpack_packR_rs (rs rt rd funct : BitVec 3) : (unpack (packR rs rt rd funct)).rs = rs := by
  rw [packR_eq_packI, unpack_packI_rs]

@[simp] theorem unpack_packR_rt (rs rt rd funct : BitVec 3) : (unpack (packR rs rt rd funct)).rt = rt := by
  rw [packR_eq_packI, unpack_packI_rt]

@[simp] theorem unpack_packR_rd (rs rt rd funct : BitVec 3) : (unpack (packR rs rt rd funct)).rd = rd := by
  rw [packR_eq_packI, unpack_rd_eq, unpack_packI_immed, BitVec.extractLsb'_append_eq_left]

@[simp] theorem unpack_packR_funct (rs rt rd funct : BitVec 3) : (unpack (packR rs rt rd funct)).funct = funct := by
  rw [packR_eq_packI, unpack_funct_eq, unpack_packI_immed, BitVec.extractLsb'_append_eq_right]

theorem packR_unpack {w : InstrWord} (h : (unpack w).opcode = 0#4) :
    packR (unpack w).rs (unpack w).rt (unpack w).rd (unpack w).funct = w := by
  rw [packR_eq_packI, unpack_rd_append_funct, ← h, packI_unpack]

/-- Settles O2: the I format from the tiling of the word, the R format as the I format with opcode 0. -/
theorem packingAndUnpackingAreInverse : Obligations.PackingAndUnpackingAreInverse :=
  ⟨fun _ _ _ _ => ⟨packR_toNat _ _ _ _, unpack_packR_opcode _ _ _ _, unpack_packR_rs _ _ _ _,
      unpack_packR_rt _ _ _ _, unpack_packR_rd _ _ _ _, unpack_packR_funct _ _ _ _⟩,
    fun _ _ _ _ => ⟨packI_toNat _ _ _ _, unpack_packI_opcode _ _ _ _, unpack_packI_rs _ _ _ _,
      unpack_packI_rt _ _ _ _, unpack_packI_immed _ _ _ _⟩,
    fun _ => packR_unpack, packI_unpack⟩

end Sys2Proof.Laws

/-! ## The object format (30_encoding.md R63) -/

namespace Sys2Proof.Machine

@[simp] theorem length_objectLine (w : InstrWord) : (objectLine w).length = 16 := by
  simp [objectLine]

/-- Character `k` of an object line is bit `15 - k` of its word. -/
theorem objectLine_getElem? (w : InstrWord) {k : Nat} (hk : k < 16) :
    (objectLine w)[k]? = some (if w.getLsbD (15 - k) then '1' else '0') := by
  simp [objectLine, BitVec.getMsbD, hk]

/-- Reading one more character doubles the number read so far and adds the bit. -/
theorem objectBitsFrom_concat (b : Bool) : ∀ (line : List Char) (acc : Nat),
    objectBitsFrom acc (line ++ [if b then '1' else '0']) = (objectBitsFrom acc line).map (2 * · + b.toNat)
  | [], acc => by cases b <;> rfl
  | c :: cs, acc => by
    simp only [List.cons_append, objectBitsFrom, objectBitsFrom_concat b cs]
    split_ifs <;> rfl

/-- A number without its low `k` bits is twice the one without its low `k + 1` bits, plus bit `k`. -/
theorem two_mul_div_add_testBit (n k : Nat) : 2 * (n / 2 ^ (k + 1)) + (n.testBit k).toNat = n / 2 ^ k := by
  rw [Nat.toNat_testBit, Nat.pow_succ, ← Nat.div_div_eq_div_mul, Nat.div_add_mod]

/-- The first `n` characters of an object line spell the top `n` bits of its word. -/
theorem objectBitsFrom_take_objectLine (w : InstrWord) : ∀ n ≤ 16,
    objectBitsFrom 0 ((objectLine w).take n) = some (w.toNat / 2 ^ (16 - n))
  | 0, _ => by rw [Nat.div_eq_of_lt w.isLt]; rfl
  | n + 1, hn => by
    have hread := objectBitsFrom_take_objectLine w n (by omega)
    have hbits : 16 - n = 15 - n + 1 := by omega
    rw [List.take_add_one, objectLine_getElem? w hn, Option.toList_some, objectBitsFrom_concat, hread, hbits,
      Option.map_some, BitVec.getLsbD, two_mul_div_add_testBit, Nat.add_sub_add_right 15 1 n]

/-- Reading an object line gives its word. -/
theorem wordOfObjectLine_objectLine (w : InstrWord) : wordOfObjectLine (objectLine w) = some w := by
  have hread : objectBitsFrom 0 (objectLine w) = some w.toNat := by
    simpa [List.take_of_length_le] using objectBitsFrom_take_objectLine w 16 le_rfl
  rw [wordOfObjectLine, if_pos (length_objectLine w), hread, Option.map_some, BitVec.ofNat_toNat, BitVec.setWidth_eq]

/-- Settles O49: the characters one by one, the reading by the prefixes of the line, the file as a map over the words. -/
theorem objectLinesSpellTheWords : Obligations.ObjectLinesSpellTheWords :=
  ⟨fun w => ⟨length_objectLine w, fun _ => objectLine_getElem? w, wordOfObjectLine_objectLine w⟩,
    fun _ => ⟨List.length_map _, fun _ => List.getElem?_map⟩⟩

end Sys2Proof.Machine

/-! ## The end of a run (40_executor_dispatch.md R67) -/

namespace Sys2Proof.Machine

/-- An enabled step answers a next state, whatever its word is. -/
theorem exists_step_of_enabled {s : State} (hst : s.st = .run) (hpc : s.pc < s.progLen) : ∃ t, step s = .next t := by
  rw [step_of_enabled hst hpc, runWord]
  cases decode (fetch s) with
  | ok i =>
    obtain ⟨r, v, hi⟩ | ⟨c, hi⟩ := exec_cases i s
    · exact ⟨_, hi⟩
    · exact ⟨_, hi⟩
  | error e => exact ⟨_, rfl⟩

theorem not_faulted_of_run {s : State} (hst : s.st = .run) : ¬ s.Faulted := by
  rintro ⟨c, k, w, hfault⟩
  rw [hst] at hfault
  cases hfault

/-- A `Done` state has passed the last word and a `FAULT` state has left `RUN`, so neither has a step. -/
theorem step_ne_next_of_ended {s : State} (hs : s.Done ∨ s.Faulted) (t : State) : step s ≠ .next t := by
  intro h
  obtain ⟨hst, hpc, -⟩ := step_next_cases h
  obtain ⟨-, hend⟩ | hfault := hs
  · exact absurd hend hpc.ne
  · exact not_faulted_of_run hst hfault

/-- R67: each step either increases `pc` by one, still in `RUN`, or faults where it stands. -/
theorem step_advances_or_faults {s t : State} (h : step s = .next t) :
    (t.pc = s.pc + 1 ∧ t.st = .run) ∨ (t.pc = s.pc ∧ t.Faulted) := by
  obtain ⟨hst, -, ⟨r, v, rfl⟩ | ⟨c, w, rfl⟩⟩ := step_next_completes_or_faults h
  · exact .inl ⟨writeAndAdvance_pc s r v, (writeAndAdvance_st s r v).trans hst⟩
  · exact .inr ⟨takeFault_pc s c w, _, _, _, takeFault_st s c w⟩

/-- The run of a running state that has `n` words before it, by induction on `n`: a step that advances leaves one word
fewer, and a step that faults ends the run. -/
theorem exists_end_within {n : Nat} : ∀ {s : State}, s.st = .run → s.pc + n = s.progLen →
    ∃ k t, k ≤ n ∧ stepN k s = .next t ∧ (t.Done ∨ t.Faulted) := by
  induction n with
  | zero => exact fun hst hend => ⟨0, _, le_rfl, stepN_zero _, .inl ⟨hst, hend⟩⟩
  | succ n ih =>
    intro s hst hlen
    obtain ⟨t, hstep⟩ := exists_step_of_enabled hst (by omega)
    obtain ⟨hpc, hrun⟩ | ⟨-, hfault⟩ := step_advances_or_faults hstep
    · have hleft : t.pc + n = t.progLen := by
        rw [(step_progLen_mem hstep).1, hpc]
        omega
      obtain ⟨k, u, hk, hu, hend⟩ := ih hrun hleft
      exact ⟨k + 1, u, Nat.succ_le_succ hk, (stepN_succ_of_next k hstep).trans hu, hend⟩
    · exact ⟨1, t, Nat.le_add_left 1 n, stepN_succ_of_next 0 hstep, .inr hfault⟩

/-- Settles O13: what a single step can do, then the bound on a run by the induction on the words left. -/
theorem everyRunEndsDoneOrFaulted : Obligations.EveryRunEndsDoneOrFaulted :=
  ⟨fun _ => step_ne_next_of_ended,
    fun _ ⟨⟨hst, _⟩, hfault⟩ => not_faulted_of_run hst hfault,
    fun _ _ => step_advances_or_faults,
    fun s hN => ⟨resetEvent_st s, (resetEvent_pc s).trans ((resetEvent_progLen s).trans hN).symm⟩,
    fun _ hst hpc => exists_end_within hst (Nat.add_sub_of_le hpc)⟩

end Sys2Proof.Machine

/-! ## The R-type arithmetic (41_rtype_alu.md) -/

namespace Sys2Proof.Machine

/-- The word of an R-type instruction as a number: its three register indices and the funct of its mnemonic (R50). -/
theorem encode_ofR_toNat (m : RName) (rs rt rd : Reg) :
    (encode (Instr.ofR m rs rt rd)).toNat =
      rs.bits.toNat * 512 + rt.bits.toNat * 64 + rd.bits.toNat * 8 + (specFn m).toNat := by
  rw [encode, encodeWith_ofR, encodeR, Laws.packR_toNat, specTables]

/-- The completing end of an instruction, with the value it leaves as a formula. -/
theorem writeAndAdvance_completes_wrapped12 (s : State) (r : Reg) (v : Int) :
    Completes r (wrapped12 v) s (writeAndAdvance r v s) := by
  rw [← wrap_eq_wrapped12]
  exact writeAndAdvance_completes s r v

/-! ### `add` and `sub` (R71, R72) -/

theorem exec_add (rs rt rd : Reg) (s : State) :
    exec (.add rs rt rd) s = .next (writeAndAdvance rd (readReg s rs + readReg s rt) s) := rfl

theorem exec_sub (rs rt rd : Reg) (s : State) :
    exec (.sub rs rt rd) s = .next (writeAndAdvance rd (readReg s rs - readReg s rt) s) := rfl

/-- Settles O24: `add` is the completing end with the sum. -/
theorem addWritesTheWrappedSum : Obligations.AddWritesTheWrappedSum :=
  fun s rs rt rd =>
    ⟨(encode_ofR_toNat .add rs rt rd).trans (Nat.add_zero _), _, exec_add rs rt rd s,
      writeAndAdvance_completes_wrapped12 s rd _⟩

/-- Settles O25: `sub` is the completing end with the difference, `x[rs]` the minuend. -/
theorem subWritesTheWrappedDifference : Obligations.SubWritesTheWrappedDifference :=
  fun s rs rt rd =>
    ⟨encode_ofR_toNat .sub rs rt rd, _, exec_sub rs rt rd s, writeAndAdvance_completes_wrapped12 s rd _⟩

/-! ### `sll` (R73, R115) -/

theorem exec_sll_of_nonneg (rs rd : Reg) {rt : Reg} {s : State} (h : 0 ≤ readReg s rt) :
    exec (.sll rs rt rd) s =
      .next (writeAndAdvance rd (shiftLeftWrap (readReg s rs) (readReg s rt).toNat) s) :=
  if_neg (not_lt.mpr h)

theorem exec_sll_of_neg (rs rd : Reg) {rt : Reg} {s : State} (h : readReg s rt < 0) :
    exec (.sll rs rt rd) s = .next (raiseFault .shiftCountNegative (.sll rs rt rd) s) :=
  if_pos h

/-- What a register holds is in range, so wrapping twice is wrapping once. -/
theorem wrap_wrap (v : Int) : wrap (wrap v) = wrap v := by
  obtain ⟨hlo, hhi⟩ := sRead_range (uBits Config.regw v)
  exact wrap_of_inRange hlo hhi

/-- Nothing of a multiple of `2 ^ REGW` is left in a register. -/
theorem wrap_eq_zero_of_dvd {v : Int} (h : 4096 ∣ v) : wrap v = 0 := by
  rw [wrap_eq_wrapped12, wrapped12]
  omega

/-- For a count of `REGW` or more, where `shiftLeftWrap` does not build the power, the product is a multiple of
`2 ^ REGW`: so for every count the register receives the product with the real power. -/
theorem wrap_shiftLeftWrap (v : Int) (n : Nat) : wrap (shiftLeftWrap v n) = wrap (v * 2 ^ n) := by
  by_cases hn : n < Config.regw
  · rw [shiftLeftWrap, if_pos hn, wrap_wrap]
  · have hpow : (4096 : Int) ∣ 2 ^ n := pow_dvd_pow 2 (not_lt.mp hn)
    rw [shiftLeftWrap, if_neg hn, wrap_eq_zero_of_dvd (dvd_zero _), wrap_eq_zero_of_dvd (hpow.mul_left v)]

/-- An `sll` that does not fault leaves the wrapped product, whatever its count is. -/
theorem writeAndAdvance_shiftLeftWrap_completes (s : State) (r : Reg) (v : Int) (n : Nat) :
    Completes r (wrapped12 (v * 2 ^ n)) s (writeAndAdvance r (shiftLeftWrap v n) s) := by
  rw [← wrap_eq_wrapped12, ← wrap_shiftLeftWrap]
  exact writeAndAdvance_completes s r _

/-- Settles O26: the sign of the count decides between the completing end and the fault. -/
theorem sllWritesTheWrappedShiftOrFaults : Obligations.SllWritesTheWrappedShiftOrFaults :=
  fun s rs rt rd =>
    ⟨encode_ofR_toNat .sll rs rt rd,
      fun hcount => ⟨_, exec_sll_of_nonneg rs rd hcount, writeAndAdvance_shiftLeftWrap_completes s rd _ _⟩,
      fun hcount => ⟨_, exec_sll_of_neg rs rd hcount, takeFault_faultsWith s _ _⟩⟩

end Sys2Proof.Machine

/-! ## The I-type instructions and `li` (42_itype.md) -/

namespace Sys2Proof.Machine

/-! ### The words of I-type instructions -/

/-- The word of an I-type instruction as a number: the opcode of its mnemonic, its two register indices, its immediate
(R50). -/
theorem encode_ofI_toNat (m : IName) (rs rt : Reg) {immed : Nat} (h : immed < 64) :
    (encode (Instr.ofI m rs rt immed)).toNat =
      (specOpc m).toNat * 4096 + rs.bits.toNat * 512 + rt.bits.toNat * 64 + immed := by
  rw [encode, encodeWith_ofI, encodeI, Laws.packI_toNat, BitVec.toNat_ofNat, Nat.mod_eq_of_lt h, specTables]

theorem specTables_iName_opc (m : IName) : specTables.iName (specTables.opc m) = some m := by
  cases m <;> rfl

theorem specTables_opc_ne_zero (m : IName) : specTables.opc m ≠ 0#4 := by
  cases m <;> decide

/-- The decoder reads back every I-type instruction whose immediate fits its six bits. -/
theorem decode_encode_ofI (m : IName) (rs rt : Reg) {immed : Nat} (h : immed < 64) :
    decode (encode (Instr.ofI m rs rt immed)) = .ok (Instr.ofI m rs rt immed) := by
  rw [encode, encodeWith_ofI, encodeI]
  simp [decode, decodeWith, specTables_opc_ne_zero, specTables_iName_opc, Nat.mod_eq_of_lt h]

/-! ### `lui` (R81) -/

theorem exec_lui (rs rt : Reg) (immed : Nat) (s : State) :
    exec (.lui rs rt immed) s = .next (writeAndAdvance rt immed s) := rfl

/-- An immediate is in the registers' range, so it is not changed on its way into one. -/
theorem writeAndAdvance_immed_completes (s : State) (r : Reg) {immed : Nat} (h : immed < 64) :
    Completes r immed s (writeAndAdvance r immed s) := by
  have hwrap : wrap immed = immed := wrap_of_inRange (by omega) (by omega)
  simpa only [hwrap] using writeAndAdvance_completes s r immed

/-- Settles O27: `lui` is the completing end with the immediate itself. -/
theorem luiLoadsTheUnshiftedImmediate : Obligations.LuiLoadsTheUnshiftedImmediate :=
  fun s rs rt immed h =>
    ⟨encode_ofI_toNat .lui rs rt h, _, exec_lui rs rt immed s, writeAndAdvance_immed_completes s rt h⟩

/-! ### `ori` (R82) -/

theorem exec_ori (rs rt : Reg) (immed : Nat) (s : State) :
    exec (.ori rs rt immed) s = .next (writeAndAdvance rt (orInt (readReg s rt) immed) s) := rfl

/-- The result of an OR is kept as it is. -/
theorem writeAndAdvance_orInt_completes (s : State) (r : Reg) (a b : Int) :
    Completes r (orInt a b) s (writeAndAdvance r (orInt a b) s) := by
  simpa only [wrap_orInt] using writeAndAdvance_completes s r (orInt a b)

/-- A pattern is the pattern of its signed reading. -/
theorem uBits_sRead {n : Nat} (p : BitVec n) : uBits n (sRead p) = p := BitVec.ofInt_toInt

theorem uBits_natCast (n k : Nat) : uBits n (k : Int) = BitVec.ofNat n k := BitVec.ofInt_natCast n k

/-- The pattern `ori` leaves: the OR of the old pattern and the immediate's. -/
theorem get_writeAndAdvance_orInt (s : State) (r : Reg) (immed : Nat) :
    (writeAndAdvance r (orInt (readReg s r) immed) s).regs.get r = s.regs.get r ||| BitVec.ofNat 12 immed := by
  rw [writeAndAdvance_regs, get_set_same, orInt, readReg, uBits_sRead, uBits_sRead, uBits_natCast]

/-- A register is negative exactly when bit 11 of its pattern is set. -/
theorem readReg_neg_iff (s : State) (r : Reg) : readReg s r < 0 ↔ (s.regs.get r).getLsbD 11 = true := by
  rw [← BitVec.msb_eq_getLsbD_last (s.regs.get r), BitVec.msb_eq_toInt, decide_eq_true_iff, readReg, sRead]

/-- Settles O28: the bits are those of the OR of the two patterns, and no immediate reaches the sign bit. -/
theorem oriSetsTheBitsOfTheImmediate : Obligations.OriSetsTheBitsOfTheImmediate := by
  intro s rs rt immed h
  have hbits : ∀ k, k < 12 →
      ((writeAndAdvance rt (orInt (readReg s rt) immed) s).regs.get rt).getLsbD k =
        ((s.regs.get rt).getLsbD k || immed.testBit k) := by
    intro k hk
    rw [get_writeAndAdvance_orInt, BitVec.getLsbD_or, BitVec.getLsbD_ofNat, decide_eq_true hk, Bool.true_and]
  have hsign : immed.testBit 11 = false := Nat.testBit_lt_two_pow (h.trans (by decide))
  have hcompletes := writeAndAdvance_orInt_completes s rt (readReg s rt) immed
  refine ⟨encode_ofI_toNat .ori rs rt h, _, exec_ori rs rt immed s, ?_, hbits, ?_⟩
  · rwa [hcompletes.1]
  · rw [readReg_neg_iff, readReg_neg_iff, hbits 11 (by decide), hsign, Bool.or_false]

/-! ### The reserved instructions (R83 to R86) -/

/-- Every I-type instruction but `lui` and `ori` is reserved. -/
theorem exec_ofI_reserved {m : IName} (hlui : m ≠ .lui) (hori : m ≠ .ori) (rs rt : Reg) (immed : Nat) (s : State) :
    exec (Instr.ofI m rs rt immed) s = .next (raiseFault .reservedOpcode (Instr.ofI m rs rt immed) s) := by
  cases m with
  | lui => exact absurd rfl hlui
  | ori => exact absurd rfl hori
  | lw | sw | andi | addi => rfl

/-- A reserved instruction takes its fault, which is all it does. -/
theorem exec_ofI_faultsWith {m : IName} (hlui : m ≠ .lui) (hori : m ≠ .ori) (rs rt : Reg) (immed : Nat) (s : State) :
    ∃ t, exec (Instr.ofI m rs rt immed) s = .next t ∧
      FaultsWith .reservedOpcode (encode (Instr.ofI m rs rt immed)) s t :=
  ⟨_, exec_ofI_reserved hlui hori rs rt immed s, takeFault_faultsWith s _ _⟩

/-- Settles O29: the four instructions are the reserved mnemonics, each with its opcode. -/
theorem reservedInstructionsTakeTheFault : Obligations.ReservedInstructionsTakeTheFault := by
  intro s rs rt immed h p hp
  simp only [List.mem_cons, List.not_mem_nil, or_false] at hp
  obtain rfl | rfl | rfl | rfl := hp
  · exact ⟨encode_ofI_toNat .lw rs rt h, exec_ofI_faultsWith (m := .lw) nofun nofun rs rt immed s⟩
  · exact ⟨encode_ofI_toNat .sw rs rt h, exec_ofI_faultsWith (m := .sw) nofun nofun rs rt immed s⟩
  · exact ⟨encode_ofI_toNat .andi rs rt h, exec_ofI_faultsWith (m := .andi) nofun nofun rs rt immed s⟩
  · exact ⟨encode_ofI_toNat .addi rs rt h, exec_ofI_faultsWith (m := .addi) nofun nofun rs rt immed s⟩

/-! ### `li` (R61, R87) -/

theorem liHigh_natCast (v : Nat) : liHigh v = BitVec.ofNat 6 (v / 64) := uBits_natCast 6 (v / 64)

theorem liLow_natCast (v : Nat) : liLow v = BitVec.ofNat 6 (v % 64) := by
  rw [liLow, uBits_natCast]
  exact BitVec.eq_of_toNat_eq (by simp)

/-- `li` is `lui` with the high half and `ori` with the low half of its value. -/
theorem wordsOfStmt_li (rt : Reg) {v : Nat} (h : v ≤ 4095) :
    wordsOfStmt (.li rt v) = .ok [encode (.lui .s0 rt (v / 64)), encode (.ori .s0 rt (v % 64))] := by
  have hin : violated 0 4095 v = none := (violated_none_iff _ _ _).mpr (by omega)
  simp only [wordsOfStmt, hin, liHigh_natCast, liLow_natCast]
  rfl

/-- An enabled step runs the instruction whose word stands at `pc`. -/
theorem step_of_fetch_ofI {s : State} (hst : s.st = .run) (hpc : s.pc < s.progLen) {m : IName} {rs rt : Reg}
    {immed : Nat} (h : immed < 64) (hfetch : fetch s = encode (Instr.ofI m rs rt immed)) :
    step s = exec (Instr.ofI m rs rt immed) s := by
  rw [step_of_enabled hst hpc, hfetch, runWord, decode_encode_ofI m rs rt h]

/-- The OR of two immediates is the OR of the numbers, an immediate again. -/
theorem orInt_natCast {a b : Nat} (ha : a < 64) (hb : b < 64) : orInt a b = (a ||| b : Nat) := by
  have hlt : a ||| b < 64 := Nat.or_lt_two_pow (n := 6) ha hb
  calc orInt a b
  _ = wrap (a ||| b : Nat) := by simp only [orInt, wrap, uBits_natCast, BitVec.ofNat_or]
  _ = (a ||| b : Nat) := wrap_of_inRange (by omega) (by omega)

/-- The OR of the two halves has six bits, so it is the value exactly when the value has no high half. -/
theorem or_halves_eq_self_iff {v : Nat} (h : v ≤ 4095) : v / 64 ||| v % 64 = v ↔ v ≤ 63 := by
  constructor
  · intro heq
    have hlt : v / 64 ||| v % 64 < 64 := Nat.or_lt_two_pow (n := 6) (by omega) (by omega)
    omega
  · intro hv
    rw [Nat.div_eq_of_lt (by omega), Nat.mod_eq_of_lt (by omega), Nat.zero_or]

theorem sameStore_trans {s t u : State} : SameStore s t → SameStore t u → SameStore s u :=
  fun ⟨hn, hread⟩ ⟨hn', hread'⟩ => ⟨hn'.trans hn, fun a => (hread' a).trans (hread a)⟩

/-- Settles O46: the step of `lui` and the step of `ori` by name, then their two frames joined. -/
theorem liLeavesTheOrOfItsHalves : Obligations.LiLeavesTheOrOfItsHalves := by
  intro s rt v hv hst hpc hwords
  have hhigh : v / 64 < 64 := by omega
  have hlow : v % 64 < 64 := by omega
  obtain ⟨hword₁, hword₂⟩ : encode (.lui .s0 rt (v / 64)) = s.mem.readWord s.pc ∧
      encode (.ori .s0 rt (v % 64)) = s.mem.readWord (s.pc + 1) := by
    simpa [wordsOfStmt_li rt hv] using hwords
  have hstep₁ := (step_of_fetch_ofI (m := .lui) hst (by omega) hhigh hword₁.symm).trans (exec_lui _ _ _ _)
  obtain ⟨hval₁, hframe₁, hpc₁, hst₁, hstore₁⟩ := writeAndAdvance_immed_completes s rt hhigh
  have hstep₂ := (step_of_fetch_ofI (m := .ori) (hst₁.trans hst) hpc hlow hword₂.symm).trans (exec_ori _ _ _ _)
  obtain ⟨hval₂, hframe₂, hpc₂, hst₂, hstore₂⟩ := writeAndAdvance_orInt_completes _ rt _ _
  have hrun := (stepN_succ_of_next 1 hstep₁).trans (stepN_succ_of_next 0 hstep₂)
  have hval := hval₂.trans ((congrArg (orInt · _) hval₁).trans (orInt_natCast hhigh hlow))
  refine ⟨_, hrun, hval, fun r hr => (hframe₂ r hr).trans (hframe₁ r hr), ?_, hst₂.trans (hst₁.trans hst),
    sameStore_trans hstore₁ hstore₂, ?_⟩
  · rw [hpc₂, hpc₁]
  · rw [hval, Nat.cast_inj, or_halves_eq_self_iff hv]

end Sys2Proof.Machine

/-! ## The Booth multiplier: addends, recoding and cycles (43_booth_multiplier.md R93 to R97, R100) -/

namespace Sys2Proof.Machine

/-! ### Patterns as numbers -/

/-- The unsigned reading of a pattern is its signed reading modulo the size of its range. -/
theorem natCast_toNat_eq_toInt_emod {n : Nat} (p : BitVec n) : (p.toNat : Int) = p.toInt % 2 ^ n := by
  have hnum : p.toNat = (p.toInt % (2 ^ n : Nat)).toNat := by rw [← BitVec.toNat_ofInt, BitVec.ofInt_toInt]
  rw [hnum, Int.toNat_of_nonneg (Int.emod_nonneg _ (by positivity)), Nat.cast_pow, Nat.cast_ofNat]

/-- The signed reading of an accumulator pattern, as the formula of R96. -/
theorem toInt_bitVec13 (S : BitVec 13) : S.toInt = ((S.toNat : Int) + 4096) % 8192 - 4096 := by
  have hlt := S.isLt
  rw [BitVec.toInt_eq_toNat_cond]
  split <;> omega

theorem toInt_range6 (a : BitVec 6) : -32 ≤ a.toInt ∧ a.toInt ≤ 31 := by
  have hlo := BitVec.le_toInt a
  have hhi := BitVec.toInt_lt (x := a)
  constructor <;> omega

/-! ### The start value (R93) -/

theorem toInt_boothInit (a : BitVec 6) : (boothInit a).toInt = 2 * a.toInt := by
  have hsign : (a.signExtend 12).toInt = a.toInt := BitVec.toInt_signExtend_of_le (by decide)
  calc (a.signExtend 12 ++ 0b0#1).toInt
  _ = 2 ^ 1 * (a.signExtend 12).toInt + (0b0#1).toNat := BitVec.toInt_append
  _ = 2 * a.toInt := by simp [hsign]

/-- Bit `j` of the start value is bit `j - 1` of the operand, with the pad bit as bit -1. -/
theorem toInt_getLsbD_boothInit (a : BitVec 6) {j : Nat} (hj : j < 7) :
    ((boothInit a).getLsbD j).toInt = qBit a ((j : Int) - 1) := by
  rw [boothInit, BitVec.getLsbD_append]
  cases j with
  | zero => simp [qBit]
  | succ j =>
    have hj6 : j < 6 := by omega
    have hbit : (a.signExtend 12).getLsbD j = a.getLsbD j := by
      rw [BitVec.getLsbD_signExtend, decide_eq_true (by omega), if_pos hj6, Bool.true_and]
    simp [hbit, qBit]

/-- The sign extension of a six-bit pattern puts six copies of its sign bit above it. -/
theorem extractLsb'_signExtend_high (a : BitVec 6) :
    (a.signExtend 12).extractLsb' 6 6 = if a.toInt < 0 then 0b111111#6 else 0b000000#6 := by
  rw [BitVec.signExtend_eq_append_of_le (by decide : 6 ≤ 12), BitVec.cast_eq, BitVec.extractLsb'_append_eq_left,
    BitVec.msb_eq_toInt]
  simp only [decide_eq_true_eq]
  rfl

theorem extractLsb'_signExtend_low (a : BitVec 6) : (a.signExtend 12).extractLsb' 0 6 = a := by
  rw [BitVec.signExtend_eq_append_of_le (by decide : 6 ≤ 12), BitVec.cast_eq, BitVec.extractLsb'_append_eq_right]

/-- Settles O34: the pad bit is the right part of the start value, the two fields are those of the sign extension. -/
theorem accumulatorStartsAsTwiceTheOperand : Obligations.AccumulatorStartsAsTwiceTheOperand :=
  fun a => ⟨toInt_boothInit a, BitVec.extractLsb'_append_eq_right,
    (BitVec.extractLsb'_append_eq_of_le (by decide)).trans (extractLsb'_signExtend_low a),
    (BitVec.extractLsb'_append_eq_of_le (by decide)).trans (extractLsb'_signExtend_high a)⟩

/-! ### The four addends (R94) -/

theorem toInt_boothAddends_B (b c : BitVec 6) : (boothAddends b c).B.toInt = 128 * b.toInt := by
  calc (b ++ 0#7).toInt
  _ = 2 ^ 7 * b.toInt + (0#7).toNat := BitVec.toInt_append
  _ = 128 * b.toInt := by simp

theorem toNat_boothAddends_B (b c : BitVec 6) : ((boothAddends b c).B.toNat : Int) = (128 * b.toInt) % 8192 := by
  rw [natCast_toNat_eq_toInt_emod, toInt_boothAddends_B]
  rfl

/-- The bit that the doubling pushes out counts `2^13`. -/
theorem toNat_boothAddends_B2 (b c : BitVec 6) : ((boothAddends b c).B2.toNat : Int) = (256 * c.toInt) % 8192 := by
  have hc := natCast_toNat_eq_toInt_emod c
  simp only [boothAddends, Laws.toNat_append_eq_mul_add, BitVec.extractLsb'_toNat, Nat.shiftRight_zero,
    BitVec.toNat_ofNat]
  omega

theorem toNat_neg13 (v : BitVec 13) : ((neg13 v).toNat : Int) = -(v.toNat : Int) % 8192 := by
  have hv := v.isLt
  rw [neg13, BitVec.toNat_ofNat]
  omega

theorem toNat_boothAddends_negB (b c : BitVec 6) :
    ((boothAddends b c).negB.toNat : Int) = (-128 * b.toInt) % 8192 := by
  have hB := toNat_boothAddends_B b c
  have hneg : ((boothAddends b c).negB.toNat : Int) = -((boothAddends b c).B.toNat : Int) % 8192 := toNat_neg13 _
  omega

theorem toNat_boothAddends_negB2 (b c : BitVec 6) :
    ((boothAddends b c).negB2.toNat : Int) = (-256 * c.toInt) % 8192 := by
  have hB2 := toNat_boothAddends_B2 b c
  have hneg : ((boothAddends b c).negB2.toNat : Int) = -((boothAddends b c).B2.toNat : Int) % 8192 := toNat_neg13 _
  omega

/-- Settles O35: the two placed operands and their negations modulo `2^13`. -/
theorem addendsAreTheWeightedOperands : Obligations.AddendsAreTheWeightedOperands :=
  fun b c => ⟨toInt_boothAddends_B b c, toNat_boothAddends_negB b c, toNat_boothAddends_B2 b c,
    toNat_boothAddends_negB2 b c⟩

/-! ### The recoding table (R95) -/

/-- Settles O36: each row is an arm of the table's definition. -/
theorem recodingTableSelectsTheAddend : Obligations.RecodingTableSelectsTheAddend :=
  fun _ => ⟨rfl, rfl, rfl, rfl, rfl, rfl, rfl, rfl⟩

/-- The digit of an inspected triple: its two new bits and the bit of the previous cycle, with the weights of R100. -/
def tripleDigit (t : BitVec 3) : Int := -2 * (t.getLsbD 2).toInt + (t.getLsbD 1).toInt + (t.getLsbD 0).toInt

/-- The exact addend of a digit: a digit of magnitude 2 takes the side operand, any other the addend operand. -/
def digitAddend (b c : BitVec 6) (d : Int) : Int := 128 * d * (if isDouble d then sRead c else sRead b)

theorem exactAddend_eq (a b c : BitVec 6) (i : Int) : exactAddend a b c i = digitAddend b c (boothDigit a i) := rfl

theorem triple_cases (t : BitVec 3) :
    t = 0b000#3 ∨ t = 0b001#3 ∨ t = 0b010#3 ∨ t = 0b011#3 ∨ t = 0b100#3 ∨ t = 0b101#3 ∨ t = 0b110#3 ∨ t = 0b111#3 := by
  revert t
  decide

/-- The table selects, row by row, the addend of the triple's digit. -/
theorem toNat_selectAddend (b c : BitVec 6) (t : BitVec 3) :
    ((selectAddend (boothAddends b c) t).toNat : Int) = digitAddend b c (tripleDigit t) % 8192 := by
  obtain ⟨row000, row001, row010, row011, row100, row101, row110, row111⟩ :=
    recodingTableSelectsTheAddend (boothAddends b c)
  have zero : ((0#13).toNat : Int) = digitAddend b c 0 % 8192 := by simp [digitAddend]
  obtain rfl | rfl | rfl | rfl | rfl | rfl | rfl | rfl := triple_cases t
  · rw [row000]; exact zero
  · rw [row001]; exact toNat_boothAddends_B b c
  · rw [row010]; exact toNat_boothAddends_B b c
  · rw [row011]; exact toNat_boothAddends_B2 b c
  · rw [row100]; exact toNat_boothAddends_negB2 b c
  · rw [row101]; exact toNat_boothAddends_negB b c
  · rw [row110]; exact toNat_boothAddends_negB b c
  · rw [row111]; exact zero

/-! ### One cycle (R96) -/

/-- The shift of a cycle is the arithmetic shift by two. -/
theorem asr2_eq_sshiftRight (S : BitVec 13) : asr2 S = S.sshiftRight 2 := by
  refine BitVec.eq_of_getLsbD_eq fun k hk => ?_
  rw [asr2_getLsbD S k hk, BitVec.getLsbD_sshiftRight, BitVec.msb_eq_getLsbD_last]
  by_cases h : k < 11
  · have hin : k + 2 < 13 := by omega
    simp [h, hin, Nat.add_comm 2, hk]
  · have hout : ¬ 2 + k < 13 := by omega
    simp [h, hout, hk]

theorem toInt_asr2 (S : BitVec 13) : (asr2 S).toInt = S.toInt / 4 := by
  rw [asr2_eq_sshiftRight, BitVec.toInt_sshiftRight, Int.shiftRight_eq_div_pow]
  rfl

/-- Settles O37: the signed reading of the truncated sum, then the shift as a division. -/
theorem cycleIsModularSumThenFloorQuarter : Obligations.CycleIsModularSumThenFloorQuarter := by
  intro d A total
  have hsum : (A + selectAddend d (A.extractLsb' 0 3)).toInt = (total + 4096) % 8192 - 4096 := by
    rw [toInt_bitVec13, BitVec.toNat_add]
    omega
  rw [boothCycle, toInt_asr2, hsum]

/-- A cycle whose addends end in seven zeros moves the low seven bits down by two. -/
theorem getLsbD_boothCycle {d : Addends} (hd : ∀ t, 128 ∣ (selectAddend d t).toNat) (A : BitVec 13) {k : Nat}
    (hk : k + 2 < 7) : (boothCycle d A).getLsbD k = A.getLsbD (k + 2) := by
  have hlow : (A + selectAddend d (A.extractLsb' 0 3)).toNat % 2 ^ 7 = A.toNat % 2 ^ 7 := by
    have hdvd := hd (A.extractLsb' 0 3)
    rw [BitVec.toNat_add]
    omega
  have hbit := congrArg (Nat.testBit · (k + 2)) hlow
  simp only [Nat.testBit_mod_two_pow, hk, decide_true, Bool.true_and] at hbit
  rw [boothCycle, asr2_getLsbD _ k (by omega), if_pos (by omega)]
  exact hbit

/-! ### The recoding depends on the operand alone (R100) -/

theorem dvd_toNat_selectAddend_boothAddends (b c : BitVec 6) (t : BitVec 3) :
    128 ∣ (selectAddend (boothAddends b c) t).toNat := by
  have hnum := toNat_selectAddend b c t
  rw [digitAddend, mul_assoc] at hnum
  omega

/-- The accumulator after `n` cycles of `BoothMul(a, b, c)`. -/
def boothAcc (a b c : BitVec 6) (n : Nat) : BitVec 13 := boothRun (boothAddends b c) n (boothInit a)

/-- A run ends with a cycle, as it begins with one. -/
theorem boothRun_succ_last (d : Addends) : ∀ (n : Nat) (A : BitVec 13),
    boothRun d (n + 1) A = boothCycle d (boothRun d n A)
  | 0, _ => rfl
  | n + 1, A => boothRun_succ_last d n (boothCycle d A)

theorem boothAcc_zero (a b c : BitVec 6) : boothAcc a b c 0 = boothInit a := rfl

theorem boothAcc_succ (a b c : BitVec 6) (n : Nat) :
    boothAcc a b c (n + 1) = boothCycle (boothAddends b c) (boothAcc a b c n) := boothRun_succ_last _ n _

theorem boothMul_eq_boothAcc (a b c : BitVec 6) : boothMul a b c = (boothAcc a b c 3).extractLsb' 1 12 := rfl

/-- After `n` cycles the low bits are the start value's, `2n` places down. -/
theorem getLsbD_boothAcc (a b c : BitVec 6) (n : Nat) : ∀ {k : Nat}, k + 2 * n < 7 →
    (boothAcc a b c n).getLsbD k = (boothInit a).getLsbD (k + 2 * n) := by
  induction n with
  | zero => exact fun _ => rfl
  | succ n ih =>
    intro k hk
    rw [boothAcc_succ, getLsbD_boothCycle (dvd_toNat_selectAddend_boothAddends b c) _ (by omega), ih (by omega)]
    congr 1
    omega

/-- The bits a cycle inspects are bits of the operand. -/
theorem toInt_getLsbD_boothAcc (a b c : BitVec 6) {n k : Nat} {j : Int} (h : k + 2 * n < 7)
    (hj : j = k + 2 * n - 1) : ((boothAcc a b c n).getLsbD k).toInt = qBit a j := by
  rw [getLsbD_boothAcc a b c n h, toInt_getLsbD_boothInit a h, hj, Nat.cast_add, Nat.cast_mul, Nat.cast_ofNat]

theorem tripleDigit_extractLsb' (A : BitVec 13) :
    tripleDigit (A.extractLsb' 0 3) = -2 * (A.getLsbD 2).toInt + (A.getLsbD 1).toInt + (A.getLsbD 0).toInt := by
  simp [tripleDigit]

/-- Cycle `n + 1` inspects the bits `2n + 1`, `2n` and `2n - 1` of the operand. -/
theorem inspectedBits_boothAcc (a b c : BitVec 6) {n : Nat} (hn : n < 3) :
    ((boothAcc a b c n).getLsbD 2).toInt = qBit a (2 * ((n : Int) + 1) - 1) ∧
      ((boothAcc a b c n).getLsbD 1).toInt = qBit a (2 * ((n : Int) + 1) - 2) ∧
      ((boothAcc a b c n).getLsbD 0).toInt = qBit a (2 * ((n : Int) + 1) - 3) :=
  ⟨toInt_getLsbD_boothAcc a b c (by omega) (by omega), toInt_getLsbD_boothAcc a b c (by omega) (by omega),
    toInt_getLsbD_boothAcc a b c (by omega) (by omega)⟩

/-- The triple inspected in cycle `n + 1` has that cycle's digit. -/
theorem tripleDigit_boothAcc (a b c : BitVec 6) {n : Nat} (hn : n < 3) :
    tripleDigit ((boothAcc a b c n).extractLsb' 0 3) = boothDigit a ((n : Int) + 1) := by
  obtain ⟨h2, h1, h0⟩ := inspectedBits_boothAcc a b c hn
  rw [tripleDigit_extractLsb', h2, h1, h0, boothDigit]

/-- The addend of cycle `n + 1` is the exact addend of that cycle's digit, modulo `2^13`. -/
theorem toNat_selectAddend_boothAcc (a b c : BitVec 6) {n : Nat} (hn : n < 3) :
    ((selectAddend (boothAddends b c) ((boothAcc a b c n).extractLsb' 0 3)).toNat : Int) =
      exactAddend a b c ((n : Int) + 1) % 8192 := by
  rw [toNat_selectAddend, tripleDigit_boothAcc a b c hn, exactAddend_eq]

/-- The binary expansion of a signed operand. -/
theorem toInt_eq_sum_qBit : ∀ a : BitVec 6,
    a.toInt = -32 * qBit a 5 + 16 * qBit a 4 + 8 * qBit a 3 + 4 * qBit a 2 + 2 * qBit a 1 + qBit a 0 := by
  decide

/-- The digits sum to the operand: each bit between two digits counts once in either, `-2 + 4` times its weight. -/
theorem digits_sum (a : BitVec 6) : boothDigit a 1 + 4 * boothDigit a 2 + 16 * boothDigit a 3 = a.toInt := by
  have hpad : qBit a (-1) = 0 := rfl
  rw [toInt_eq_sum_qBit]
  norm_num [boothDigit, hpad]
  ring

theorem toInt_bool_range (x : Bool) : 0 ≤ x.toInt ∧ x.toInt ≤ 1 := by cases x <;> decide

theorem qBit_range (a : BitVec 6) (j : Int) : 0 ≤ qBit a j ∧ qBit a j ≤ 1 := by
  unfold qBit
  split
  · decide
  · exact toInt_bool_range _

theorem boothDigit_range (a : BitVec 6) (i : Int) : -2 ≤ boothDigit a i ∧ boothDigit a i ≤ 2 := by
  have h1 := qBit_range a (2 * i - 1)
  have h2 := qBit_range a (2 * i - 2)
  have h3 := qBit_range a (2 * i - 3)
  unfold boothDigit
  omega

/-- Settles O38: the inspected bits travel down from the start value, and the table turns them into the digit's addend. -/
theorem recodingDependsOnTheOperandAlone : Obligations.RecodingDependsOnTheOperandAlone :=
  ⟨fun a b c _ hn => ⟨inspectedBits_boothAcc a b c hn, toNat_selectAddend_boothAcc a b c hn⟩,
    fun a => ⟨digits_sum a, fun i _ => boothDigit_range a i⟩⟩

end Sys2Proof.Machine

/-! ## The Booth multiplier: the product (43_booth_multiplier.md R97, R101, R103, R104, R106) -/

namespace Sys2Proof.Machine

/-! ### The product from the three sums (R96, R97) -/

/-- The signed 13-bit reading of an integer: what truncating a sum to the accumulator's width leaves of it. -/
def wrapped13 (v : Int) : Int := (v + 4096) % 8192 - 4096

theorem wrapped13_range (v : Int) : fits13 (wrapped13 v) := by
  unfold fits13 wrapped13
  omega

theorem wrapped13_of_fits {v : Int} (h : fits13 v) : wrapped13 v = v := by
  unfold fits13 at h
  unfold wrapped13
  omega

theorem wrapped13_modEq (v : Int) : wrapped13 v ≡ v [ZMOD 8192] := by
  unfold wrapped13 Int.ModEq
  omega

/-- A cycle of `BoothMul`: the sum with the exact addend is truncated, and the shift rounds its quarter down. -/
theorem toInt_boothAcc_succ (a b c : BitVec 6) {n : Nat} (hn : n < 3) :
    (boothAcc a b c (n + 1)).toInt = wrapped13 ((boothAcc a b c n).toInt + exactAddend a b c ((n : Int) + 1)) / 4 := by
  have hcycle := cycleIsModularSumThenFloorQuarter (boothAddends b c) (boothAcc a b c n)
  have hacc := natCast_toNat_eq_toInt_emod (boothAcc a b c n)
  have haddend := toNat_selectAddend_boothAcc a b c hn
  rw [boothAcc_succ, hcycle, wrapped13]
  omega

/-- Dropping the pad bit halves the accumulator. -/
theorem toInt_boothMul (a b c : BitVec 6) : (boothMul a b c).toInt = (boothAcc a b c 3).toInt / 2 := by
  have hlt := (boothAcc a b c 3).isLt
  rw [boothMul_eq_boothAcc, toInt_bitVec13, BitVec.toInt_eq_toNat_cond, BitVec.extractLsb'_toNat,
    Nat.shiftRight_eq_div_pow]
  split <;> omega

theorem toInt_boothAcc_one (a b c : BitVec 6) : (boothAcc a b c 1).toInt = wrapped13 (exactS1 a b c) / 4 := by
  rw [toInt_boothAcc_succ a b c (by decide), boothAcc_zero, toInt_boothInit]
  rfl

theorem toInt_boothAcc_two (a b c : BitVec 6) :
    (boothAcc a b c 2).toInt = wrapped13 (wrapped13 (exactS1 a b c) / 4 + exactAddend a b c 2) / 4 := by
  rw [toInt_boothAcc_succ a b c (by decide), toInt_boothAcc_one]
  rfl

theorem toInt_boothAcc_three (a b c : BitVec 6) :
    (boothAcc a b c 3).toInt =
      wrapped13 (wrapped13 (wrapped13 (exactS1 a b c) / 4 + exactAddend a b c 2) / 4 + exactAddend a b c 3) / 4 := by
  rw [toInt_boothAcc_succ a b c (by decide), toInt_boothAcc_two]
  rfl

/-! ### The range of a product (R106) -/

/-- Every bit of the product from bit 9 up is the sign of the last sum: the shift copies it twice above itself. -/
theorem getLsbD_boothMul_high (a b c : BitVec 6) {k : Nat} (hlo : 9 ≤ k) (hhi : k < 12) :
    (boothMul a b c).getLsbD k =
      (boothAcc a b c 2 +
        selectAddend (boothAddends b c) ((boothAcc a b c 2).extractLsb' 0 3)).getLsbD 12 := by
  rw [boothMul_eq_boothAcc, BitVec.getLsbD_extractLsb', decide_eq_true hhi, Bool.true_and, boothAcc_succ, boothCycle,
    asr2_getLsbD _ _ (by omega)]
  split
  · congr 1
    omega
  · rfl

theorem toInt_boothMul_range (a b c : BitVec 6) : -512 ≤ (boothMul a b c).toInt ∧ (boothMul a b c).toInt ≤ 511 := by
  obtain ⟨hlo, hhi⟩ := wrapped13_range ((boothAcc a b c 2).toInt + exactAddend a b c 3)
  have hacc : (boothAcc a b c 3).toInt = wrapped13 ((boothAcc a b c 2).toInt + exactAddend a b c 3) / 4 :=
    toInt_boothAcc_succ a b c (by decide)
  rw [toInt_boothMul, hacc]
  omega

/-- A product with one factor between two bounds lies between the products with the bounds. -/
theorem mul_between (x : Int) {y lo hi : Int} (hlo : lo ≤ y) (hhi : y ≤ hi) :
    min (x * lo) (x * hi) ≤ x * y ∧ x * y ≤ max (x * lo) (x * hi) := by
  rcases le_total 0 x with hx | hx
  · exact ⟨min_le_of_left_le (mul_le_mul_of_nonneg_left hlo hx), le_max_of_le_right (mul_le_mul_of_nonneg_left hhi hx)⟩
  · exact ⟨min_le_of_right_le (mul_le_mul_of_nonpos_left hhi hx), le_max_of_le_left (mul_le_mul_of_nonpos_left hlo hx)⟩

theorem mul_toInt_range6 (a b : BitVec 6) : -992 ≤ a.toInt * b.toInt ∧ a.toInt * b.toInt ≤ 1024 := by
  have ha := toInt_range6 a
  obtain ⟨hb, hb'⟩ := toInt_range6 b
  have hab := mul_between a.toInt hb hb'
  omega

/-- Settles O44: the three top bits are one sign bit, and the last quarter and half of a 13-bit sum bound the product. -/
theorem productsStayBelow512 : Obligations.ProductsStayBelow512 := by
  refine ⟨fun a b c => ?_, mul_toInt_range6⟩
  have h11 := getLsbD_boothMul_high a b c (k := 11) (by decide) (by decide)
  have h10 := getLsbD_boothMul_high a b c (k := 10) (by decide) (by decide)
  have h9 := getLsbD_boothMul_high a b c (k := 9) (by decide) (by decide)
  exact ⟨h11.trans h10.symm, h10.trans h9.symm, toInt_boothMul_range a b c⟩

/-! ### The product and the exact run (R101) -/

/-- Without overflow no truncation changes a sum, so the product is an eighth of the last exact sum. -/
theorem toInt_boothMul_of_noOverflow {a b c : BitVec 6} (h : noOverflow a b c) :
    (boothMul a b c).toInt = exactS3 a b c / 8 := by
  obtain ⟨h1, h2, h3⟩ := h
  rw [toInt_boothMul, toInt_boothAcc_three, wrapped13_of_fits h1, ← exactS2, wrapped13_of_fits h2, ← exactS3,
    wrapped13_of_fits h3]
  omega

/-- A shift by two divides an error as it divides the sum. -/
theorem ediv_four_modEq {m u v : Int} (h : u ≡ v [ZMOD 4 * m]) : u / 4 ≡ v / 4 [ZMOD m] := by
  obtain ⟨k, hk⟩ := h.dvd
  have hv : v / 4 = u / 4 + m * k := by
    rw [← Int.add_mul_ediv_left u (m * k) (by decide), ← mul_assoc, ← hk, add_sub_cancel]
  rw [hv]
  exact (Int.add_mul_emod_self_left _ _ _).symm

/-- An accumulator that agrees with an exact one modulo `4 * m` agrees with it modulo `m` after the next cycle. -/
theorem boothAcc_succ_modEq {a b c : BitVec 6} {n : Nat} {m x : Int} (hn : n < 3) (hm : 4 * m ∣ 8192)
    (h : (boothAcc a b c n).toInt ≡ x [ZMOD 4 * m]) :
    (boothAcc a b c (n + 1)).toInt ≡ (x + exactAddend a b c ((n : Int) + 1)) / 4 [ZMOD m] := by
  rw [toInt_boothAcc_succ a b c hn]
  exact ediv_four_modEq (((wrapped13_modEq _).of_dvd hm).trans (h.add_right _))

/-- Whatever overflows, the truncations lose multiples of `2^13`, of which the shifts leave multiples of 64. -/
theorem toInt_boothMul_emod (a b c : BitVec 6) : (boothMul a b c).toInt % 64 = exactS3 a b c / 8 % 64 := by
  have h0 : (boothAcc a b c 0).toInt ≡ 2 * sRead a [ZMOD 4 * 2048] := by rw [boothAcc_zero, toInt_boothInit]; rfl
  have h1 : (boothAcc a b c 1).toInt ≡ exactS1 a b c / 4 [ZMOD 4 * 512] :=
    boothAcc_succ_modEq (by decide) (by norm_num) h0
  have h2 : (boothAcc a b c 2).toInt ≡ exactS2 a b c / 4 [ZMOD 4 * 128] :=
    boothAcc_succ_modEq (by decide) (by norm_num) h1
  have h3 : (boothAcc a b c 3).toInt ≡ exactS3 a b c / 4 [ZMOD 128] :=
    boothAcc_succ_modEq (by decide) (by norm_num) h2
  rw [toInt_boothMul]
  unfold Int.ModEq at h3
  omega

/-- An exact addend in the weights of its two operands, of which one is 0. -/
theorem exactAddend_eq_weights (a b c : BitVec 6) (i : Int) :
    exactAddend a b c i = 128 * (sRead b * digitWeight a false i + sRead c * digitWeight a true i) := by
  unfold exactAddend digitWeight
  cases isDouble (boothDigit a i) <;> simp <;> ring

/-- The closed form is what the three shifts leave of the exact run: the addends by their weights, and of the start value
`2a` only its sign. -/
theorem exactS3_div_eight (a b c : BitVec 6) : exactS3 a b c / 8 = closedForm a b c := by
  have hsums : closedForm a b c = (if sRead a < 0 then -1 else 0) +
      ((sRead b * digitWeight a false 1 + sRead c * digitWeight a true 1) +
        4 * (sRead b * digitWeight a false 2 + sRead c * digitWeight a true 2) +
        16 * (sRead b * digitWeight a false 3 + sRead c * digitWeight a true 3)) := by
    unfold closedForm weightSum
    ring
  have ha : -32 ≤ sRead a ∧ sRead a ≤ 31 := toInt_range6 a
  simp only [hsums, exactS3, exactS2, exactS1, exactAddend_eq_weights]
  split <;> omega

theorem toInt_boothMul_eq_closedForm {a b c : BitVec 6} (h : noOverflow a b c) :
    (boothMul a b c).toInt = closedForm a b c := by
  rw [toInt_boothMul_of_noOverflow h, exactS3_div_eight]

theorem toInt_boothMul_emod_closedForm (a b c : BitVec 6) :
    (boothMul a b c).toInt % 64 = closedForm a b c % 64 := by
  rw [toInt_boothMul_emod, exactS3_div_eight]

/-! ### A matching side operand (R102, R103) -/

/-- A digit counts in exactly one of the two weights. -/
theorem digitWeight_add (a : BitVec 6) (i : Int) : digitWeight a false i + digitWeight a true i = boothDigit a i := by
  unfold digitWeight
  cases isDouble (boothDigit a i) <;> simp

theorem weightSum_add (a : BitVec 6) : weightSum a false + weightSum a true = a.toInt := by
  have h1 := digitWeight_add a 1
  have h2 := digitWeight_add a 2
  have h3 := digitWeight_add a 3
  rw [← digits_sum, weightSum, weightSum]
  omega

/-- With a matching side operand the closed form is the product, one less for a negative operand. -/
theorem closedForm_self (a b : BitVec 6) :
    closedForm a b b = (if a.toInt < 0 then -1 else 0) + a.toInt * b.toInt := by
  rw [closedForm, sRead, sRead, add_assoc, ← mul_add, weightSum_add, mul_comm]

/-- With a matching side operand every exact sum is made of the operand's own shifts and a multiple of `b`: `b` times the
digits recoded so far, the last of which complete `a`. -/
theorem exactSums_self (a b : BitVec 6) :
    exactS1 a b b = 2 * a.toInt + 128 * (boothDigit a 1 * b.toInt) ∧
      exactS2 a b b = a.toInt / 2 + 32 * ((boothDigit a 1 + 4 * boothDigit a 2) * b.toInt) ∧
      exactS3 a b b = a.toInt / 8 + 8 * (a.toInt * b.toInt) := by
  have haddend : ∀ i, exactAddend a b b i = 128 * (boothDigit a i * b.toInt) := fun i => by
    rw [exactAddend, ite_self, sRead, mul_assoc]
  have hprod : a.toInt * b.toInt =
      boothDigit a 1 * b.toInt + 4 * (boothDigit a 2 * b.toInt) + 16 * (boothDigit a 3 * b.toInt) := by
    rw [← digits_sum a]
    ring
  rw [exactS3, exactS2, exactS1, haddend, haddend, haddend, sRead, add_mul, mul_assoc, hprod]
  omega

/-- The first digits alone recode the low bits: two of them, then four, read as signed. -/
theorem partialDigits_range (a : BitVec 6) :
    (-2 ≤ boothDigit a 1 ∧ boothDigit a 1 ≤ 1) ∧
      (-8 ≤ boothDigit a 1 + 4 * boothDigit a 2 ∧ boothDigit a 1 + 4 * boothDigit a 2 ≤ 7) := by
  have hpad : qBit a (-1) = 0 := rfl
  have h0 := qBit_range a 0
  have h1 := qBit_range a 1
  have h2 := qBit_range a 2
  have h3 := qBit_range a 3
  norm_num [boothDigit, hpad]
  omega

/-- The corners `b = -16` with digits -2 and -8 reach `2^12` with the multiple of `b`; a negative operand's own shifts
pull the sum back below it. -/
theorem noOverflow_self_of_neg {a b : BitVec 6} (ha : a.toInt < 0) (hlo : -16 ≤ b.toInt) (hhi : b.toInt ≤ 15) :
    noOverflow a b b := by
  obtain ⟨hS1, hS2, hS3⟩ := exactSums_self a b
  have harange := toInt_range6 a
  have hdigits := partialDigits_range a
  have h1 := mul_between (boothDigit a 1) hlo hhi
  have h2 := mul_between (boothDigit a 1 + 4 * boothDigit a 2) hlo hhi
  have h3 := mul_between a.toInt hlo hhi
  unfold noOverflow fits13
  rw [hS1, hS2, hS3]
  omega

/-- With a negative operand the closed form is one off the product, and no multiple of 64 makes that up. -/
theorem toInt_boothMul_self_ne_of_neg {a : BitVec 6} (ha : a.toInt < 0) (b : BitVec 6) :
    (boothMul a b b).toInt ≠ a.toInt * b.toInt := by
  have hmod := toInt_boothMul_emod_closedForm a b b
  rw [closedForm_self, if_pos ha] at hmod
  omega

theorem toInt_boothMul_self_of_neg {a b : BitVec 6} (ha : a.toInt < 0) (h : noOverflow a b b) :
    (boothMul a b b).toInt = a.toInt * b.toInt - 1 := by
  rw [toInt_boothMul_eq_closedForm h, closedForm_self, if_pos ha]
  omega

/-! ### Which operands matter (R104) -/

/-- The operands enter the product through the three exact addends alone. -/
theorem boothMul_congr {a b c b' c' : BitVec 6}
    (h : ∀ i ∈ [(1 : Int), 2, 3], exactAddend a b c i = exactAddend a b' c' i) :
    boothMul a b c = boothMul a b' c' := by
  have h1 := h 1 (by decide)
  have h2 := h 2 (by decide)
  have h3 := h 3 (by decide)
  apply BitVec.eq_of_toInt_eq
  rw [toInt_boothMul, toInt_boothMul, toInt_boothAcc_three, toInt_boothAcc_three, exactS1, exactS1, h1, h2, h3]

theorem isDouble_iff (d : Int) : isDouble d = true ↔ d = 2 ∨ d = -2 := by simp [isDouble]

/-- An addend of a digit other than `±2` does not use the side operand. -/
theorem exactAddend_eq_of_not_isDouble {a : BitVec 6} {i : Int} (h : ¬ isDouble (boothDigit a i) = true)
    (b c c' : BitVec 6) : exactAddend a b c i = exactAddend a b c' i := by
  rw [exactAddend, exactAddend, if_neg h, if_neg h]

/-- An addend of a digit other than `±1` does not use the addend operand. -/
theorem exactAddend_eq_of_not_single {a : BitVec 6} {i : Int} (h : boothDigit a i ≠ 1 ∧ boothDigit a i ≠ -1)
    (b b' c : BitVec 6) : exactAddend a b c i = exactAddend a b' c i := by
  by_cases hdouble : isDouble (boothDigit a i) = true
  · rw [exactAddend, exactAddend, if_pos hdouble, if_pos hdouble]
  · have hzero : boothDigit a i = 0 := by
      have hrange := boothDigit_range a i
      rw [isDouble_iff] at hdouble
      omega
    simp [exactAddend, hzero]

/-- Addends within half of the accumulator's range overflow nowhere, since each shift leaves a quarter. -/
theorem noOverflow_of_small_addends {a b c : BitVec 6}
    (h : ∀ i, -2048 ≤ exactAddend a b c i ∧ exactAddend a b c i ≤ 2048) : noOverflow a b c := by
  have ha : -32 ≤ sRead a ∧ sRead a ≤ 31 := toInt_range6 a
  have h1 := h 1
  have h2 := h 2
  have h3 := h 3
  unfold noOverflow fits13 exactS3 exactS2 exactS1
  omega

theorem digitWeight_true_cases (a : BitVec 6) (i : Int) :
    digitWeight a true i = 2 ∨ digitWeight a true i = -2 ∨ digitWeight a true i = 0 := by
  unfold digitWeight
  split
  · have := (isDouble_iff _).mp ‹_›
    omega
  · exact .inr (.inr rfl)

/-- With addend operand 0 and side operand 0 or 1 nothing overflows, so the closed form shows the weight of the side
operand. -/
theorem toInt_boothMul_zero_left {a c : BitVec 6} (hc : c.toInt = 0 ∨ c.toInt = 1) :
    (boothMul a 0#6 c).toInt = (if sRead a < 0 then -1 else 0) + c.toInt * weightSum a true := by
  have hno : noOverflow a 0#6 c := noOverflow_of_small_addends fun i => by
    have hweight := digitWeight_true_cases a i
    have hzero : sRead 0#6 = 0 := rfl
    rw [exactAddend_eq_weights, hzero, sRead]
    obtain hc | hc := hc <;> rw [hc] <;> omega
  have hzero : sRead 0#6 = 0 := rfl
  rw [toInt_boothMul_eq_closedForm hno, closedForm, hzero, sRead, sRead]
  ring

/-- The digits `±2` do not cancel: the lowest of them decides the sum modulo the next power of four. -/
theorem weightSum_true_ne_zero {a : BitVec 6} (h : ∃ i ∈ [(1 : Int), 2, 3], isDouble (boothDigit a i) = true) :
    weightSum a true ≠ 0 := by
  obtain ⟨i, hi, hdouble⟩ := h
  have hne : digitWeight a true i ≠ 0 := by
    rw [digitWeight, if_pos hdouble]
    have := (isDouble_iff _).mp hdouble
    omega
  have h1 := digitWeight_true_cases a 1
  have h2 := digitWeight_true_cases a 2
  have h3 := digitWeight_true_cases a 3
  simp only [List.mem_cons, List.not_mem_nil, or_false] at hi
  unfold weightSum
  obtain rfl | rfl | rfl := hi <;> omega

/-- The product depends on the side operand exactly through a digit `±2`. -/
theorem exists_boothMul_ne_iff (a : BitVec 6) :
    (∃ b c c' : BitVec 6, boothMul a b c ≠ boothMul a b c') ↔
      ∃ i ∈ [(1 : Int), 2, 3], isDouble (boothDigit a i) = true := by
  constructor
  · rintro ⟨b, c, c', hne⟩
    by_contra hnone
    push Not at hnone
    exact hne (boothMul_congr fun i hi => exactAddend_eq_of_not_isDouble (hnone i hi) b c c')
  · intro hdouble
    refine ⟨0#6, 0#6, 1#6, fun heq => weightSum_true_ne_zero hdouble ?_⟩
    have h0 : (boothMul a 0#6 0#6).toInt = _ := toInt_boothMul_zero_left (.inl rfl)
    have h1 : (boothMul a 0#6 1#6).toInt = _ := toInt_boothMul_zero_left (.inr rfl)
    have hzero : (0#6).toInt = 0 := rfl
    have hone : (1#6).toInt = 1 := rfl
    rw [heq, h1, hzero, hone] at h0
    omega

/-- R104's list of the 27 operands without a digit `±2`, checked operand by operand. -/
theorem exists_isDouble_iff_notMem : ∀ a : BitVec 6,
    (∃ i ∈ [(1 : Int), 2, 3], isDouble (boothDigit a i) = true) ↔
      a.toInt ∉ [(-21 : Int), -20, -19, -17, -16, -15, -13, -12, -11, -5, -4, -3, -1, 0, 1, 3, 4, 5, 11, 12, 13, 15, 16,
        17, 19, 20, 21] := by decide

/-- R104's list of the operands without a digit `±1`, checked operand by operand. -/
theorem digit_not_single_of_mem : ∀ a : BitVec 6, a.toInt ∈ [(-32 : Int), -26, -8, -2, 0, 6, 24, 30] →
    ∀ i ∈ [(1 : Int), 2, 3], boothDigit a i ≠ 1 ∧ boothDigit a i ≠ -1 := by decide

/-- Settles O43: dependence goes through the addends, and with small operands the closed form shows it. -/
theorem sideOperandMattersExactlyForDoubledDigits : Obligations.SideOperandMattersExactlyForDoubledDigits :=
  ⟨fun a => ⟨exists_boothMul_ne_iff a, exists_isDouble_iff_notMem a⟩,
    fun a ha => ⟨digit_not_single_of_mem a ha, fun b b' c =>
      boothMul_congr fun i hi => exactAddend_eq_of_not_single (digit_not_single_of_mem a ha i hi) b b' c⟩⟩

end Sys2Proof.Machine

/-! ## The instruction `bth` (43_booth_multiplier.md R92, R98, R99, R103) -/

namespace Sys2Proof.Machine

theorem exec_bth (rs rt rd : Reg) (s : State) :
    exec (.bth rs rt rd) s =
      .next (writeAndAdvance rd
        (sRead (boothMul (low6 (readReg s rs)) (low6 (readReg s rt)) (low6 (readReg s .r3)))) s) := rfl

/-- A product has the width of a register, so it is kept as it is. -/
theorem writeAndAdvance_sRead_completes (s : State) (r : Reg) (p : Word) :
    Completes r p.toInt s (writeAndAdvance r (sRead p) s) := by
  have hwrap : wrap (sRead p) = p.toInt := congrArg sRead (uBits_sRead p)
  simpa only [hwrap] using writeAndAdvance_completes s r (sRead p)

/-! ### The six-bit operands (R92) -/

theorem low6_readReg (s : State) (r : Reg) : low6 (readReg s r) = (s.regs.get r).extractLsb' 0 6 := calc
  (s.regs.get r).signExtend 6
  _ = (s.regs.get r).setWidth 6 := BitVec.signExtend_eq_setWidth_of_le _ (by decide)
  _ = (s.regs.get r).extractLsb' 0 6 := BitVec.setWidth_eq_extractLsb' (by decide)

theorem toNat_low6 (v : Int) : ((low6 v).toNat : Int) = v % 64 := by
  rw [low6, uBits, BitVec.toNat_ofInt]
  omega

theorem low6_eq_of_emod_eq {v w : Int} (h : v % 64 = w % 64) : low6 v = low6 w := by
  apply BitVec.eq_of_toNat_eq
  have hv := toNat_low6 v
  have hw := toNat_low6 w
  omega

theorem toInt_low6_of_inRange {v : Int} (hlo : -32 ≤ v) (hhi : v ≤ 31) : (low6 v).toInt = v :=
  BitVec.toInt_ofInt_eq_self (by decide) (by omega) (by omega)

/-! ### The statements about the machine -/

/-- Settles O30: `bth` is the completing end with the product of the old low six bits. -/
theorem bthWritesTheSignedProduct : Obligations.BthWritesTheSignedProduct := by
  intro s rs rt rd
  refine ⟨encode_ofR_toNat .bth rs rt rd, _, exec_bth rs rt rd s, ?_⟩
  rw [low6_readReg, low6_readReg, low6_readReg]
  exact writeAndAdvance_sRead_completes s rd _

/-- All that `bth` does to its destination register. -/
theorem readReg_exec_bth {s t : State} {rs rt rd : Reg} (h : exec (.bth rs rt rd) s = .next t) :
    readReg t rd = (boothMul (low6 (readReg s rs)) (low6 (readReg s rt)) (low6 (readReg s .r3))).toInt := by
  rw [exec_bth] at h
  cases h
  exact (writeAndAdvance_sRead_completes s rd _).1

/-- Settles O31: the result is a function of the three six-bit patterns, and each of those of a residue modulo 64. -/
theorem bthUsesOnlyTheLowSixBits : Obligations.BthUsesOnlyTheLowSixBits := by
  refine ⟨fun s rs rt rd => ⟨_, exec_bth rs rt rd s, readReg_exec_bth (exec_bth rs rt rd s)⟩, ?_,
    fun v => ⟨toNat_low6 v, toInt_low6_of_inRange⟩, rfl, rfl⟩
  intro s u s' u' rs rt rd hrs hrt hr3 hs hu
  rw [readReg_exec_bth hs, readReg_exec_bth hu, low6_eq_of_emod_eq hrs, low6_eq_of_emod_eq hrt, low6_eq_of_emod_eq hr3]

/-- With a side operand that agrees with the addend operand modulo 64, `bth` multiplies by one six-bit operand. -/
theorem readReg_exec_bth_of_match {s t : State} {rs rt rd : Reg} (h : exec (.bth rs rt rd) s = .next t)
    (hr3 : readReg s .r3 % 64 = readReg s rt % 64) :
    readReg t rd = (boothMul (low6 (readReg s rs)) (low6 (readReg s rt)) (low6 (readReg s rt))).toInt := by
  rw [readReg_exec_bth h, low6_eq_of_emod_eq hr3]

/-- Settles O42: the operands stand for themselves and the side operand is the addend operand, so these are the laws of
the product with a negative operand. -/
theorem bthOfNegativeOperandIsOneLess : Obligations.BthOfNegativeOperandIsOneLess := by
  intro s rs rt rd hrsLo hrsHi hrtLo hrtHi hr3
  obtain ⟨t, hexec⟩ : ∃ t, exec (.bth rs rt rd) s = .next t := ⟨_, exec_bth rs rt rd s⟩
  have hrs := toInt_low6_of_inRange hrsLo (by omega)
  have hrt := toInt_low6_of_inRange hrtLo hrtHi
  have hneg : (low6 (readReg s rs)).toInt < 0 := by omega
  have hless : noOverflow (low6 (readReg s rs)) (low6 (readReg s rt)) (low6 (readReg s rt)) →
      readReg t rd = readReg s rs * readReg s rt - 1 := fun h => by
    rw [readReg_exec_bth_of_match hexec hr3, toInt_boothMul_self_of_neg hneg h, hrs, hrt]
  refine ⟨t, hexec, fun heq => ?_, hless, fun hlo hhi => hless ?_⟩
  · rw [readReg_exec_bth_of_match hexec hr3] at heq
    exact toInt_boothMul_self_ne_of_neg hneg _ (heq.trans (by rw [hrs, hrt]))
  · exact noOverflow_self_of_neg hneg (by omega) (by omega)

end Sys2Proof.Machine

/-! ## The decoder's answers (30_encoding.md R49, R51, R52) -/

namespace Sys2Proof.Laws

/-- Said once: everything the decoder can answer, by the opcode and the table the opcode selects. -/
theorem decodeWith_cases (T : Tables) (w : InstrWord) :
    ((unpack w).opcode = 0#4 ∧
      ((∃ m, T.rName (unpack w).funct = some m ∧ decodeWith T w =
          .ok (Instr.ofR m (Reg.ofBits (unpack w).rs) (Reg.ofBits (unpack w).rt) (Reg.ofBits (unpack w).rd))) ∨
        (T.rName (unpack w).funct = none ∧ decodeWith T w = .error .unknownFunct))) ∨
    ((unpack w).opcode ≠ 0#4 ∧
      ((∃ m, T.iName (unpack w).opcode = some m ∧ decodeWith T w =
          .ok (Instr.ofI m (Reg.ofBits (unpack w).rs) (Reg.ofBits (unpack w).rt) (unpack w).immed.toNat)) ∨
        (T.iName (unpack w).opcode = none ∧ decodeWith T w = .error .unknownOpcode))) := by
  by_cases hop : (unpack w).opcode = 0#4
  · refine .inl ⟨hop, ?_⟩
    cases hm : T.rName (unpack w).funct with
    | some m => exact .inl ⟨m, rfl, by simp only [decodeWith, if_pos hop, hm]⟩
    | none => exact .inr ⟨rfl, by simp only [decodeWith, if_pos hop, hm]⟩
  · refine .inr ⟨hop, ?_⟩
    cases hm : T.iName (unpack w).opcode with
    | some m => exact .inl ⟨m, rfl, by simp only [decodeWith, if_neg hop, hm]⟩
    | none => exact .inr ⟨rfl, by simp only [decodeWith, if_neg hop, hm]⟩

/-- A word that decodes is R-type with a funct of the table, or I-type with an opcode of the table. -/
theorem decodeWith_ok_cases {T : Tables} {w : InstrWord} {i : Instr} (h : decodeWith T w = .ok i) :
    (∃ m, (unpack w).opcode = 0#4 ∧ T.fn m = (unpack w).funct ∧
      i = Instr.ofR m (Reg.ofBits (unpack w).rs) (Reg.ofBits (unpack w).rt) (Reg.ofBits (unpack w).rd)) ∨
    (∃ m, (unpack w).opcode ≠ 0#4 ∧ T.opc m = (unpack w).opcode ∧
      i = Instr.ofI m (Reg.ofBits (unpack w).rs) (Reg.ofBits (unpack w).rt) (unpack w).immed.toNat) := by
  obtain ⟨hop, ⟨m, hm, hd⟩ | ⟨-, hd⟩⟩ | ⟨hop, ⟨m, hm, hd⟩ | ⟨-, hd⟩⟩ := decodeWith_cases T w <;>
    rw [hd] at h <;> cases h
  · exact .inl ⟨m, hop, fn_of_rName hm, rfl⟩
  · exact .inr ⟨m, hop, opc_of_iName hm, rfl⟩

/-- The word of a decoded instruction is the word it was decoded from, so a fault an instruction takes by itself records
the word fetched. -/
theorem encodeWith_of_decodeWith {T : Tables} {w : InstrWord} {i : Instr} (h : decodeWith T w = .ok i) :
    encodeWith T i = w := by
  obtain ⟨m, hop, hm, rfl⟩ | ⟨m, -, hm, rfl⟩ := decodeWith_ok_cases h
  · rw [encodeWith_ofR, encodeR, bits_ofBits, bits_ofBits, bits_ofBits, hm, packR_unpack hop]
  · rw [encodeWith_ofI, encodeI, bits_ofBits, bits_ofBits, hm, BitVec.ofNat_toNat, BitVec.setWidth_eq, packI_unpack]

/-! ### The spec's tables and the fields as numbers -/

/-- The functs outside the funct table are 4 to 7 (R52). -/
theorem specTables_rName_eq_none_iff : ∀ funct, specTables.rName funct = none ↔ 4 ≤ funct.toNat := by decide

/-- The opcodes other than 0 outside the opcode table are 7 to 15 (R51). -/
theorem specTables_iName_eq_none_iff : ∀ opcode ≠ 0#4, specTables.iName opcode = none ↔ 7 ≤ opcode.toNat := by decide

theorem toNat_unpack_opcode (w : InstrWord) : (unpack w).opcode.toNat = w.toNat / 4096 := by
  have hlt := w.isLt
  simp only [unpack, BitVec.extractLsb'_toNat, Nat.shiftRight_eq_div_pow]
  omega

theorem toNat_unpack_funct (w : InstrWord) : (unpack w).funct.toNat = w.toNat % 8 := by
  simp only [unpack, BitVec.extractLsb'_toNat, Nat.shiftRight_zero]

end Sys2Proof.Laws

/-! ## The faults (60_exceptions.md) -/

namespace Sys2Proof.Machine

/-! ### The order of checks, one equation per class of words (40_executor_dispatch.md R66) -/

section Checks

variable {w : InstrWord} (s : State)

theorem faultOfWord_of_opcode_unknown (h : 7 ≤ (unpack w).opcode.toNat) : faultOfWord w s = some .unknownOpcode :=
  if_pos h

theorem faultOfWord_of_funct_unknown (hop : (unpack w).opcode.toNat = 0) (h : 4 ≤ (unpack w).funct.toNat) :
    faultOfWord w s = some .unknownFunct := by
  simp [faultOfWord, hop, h]

theorem faultOfWord_of_opcode_reserved (hlo : 3 ≤ (unpack w).opcode.toNat) (hhi : (unpack w).opcode.toNat ≤ 6) :
    faultOfWord w s = some .reservedOpcode := by
  have hknown : ¬ 7 ≤ (unpack w).opcode.toNat := by omega
  have hne : (unpack w).opcode.toNat ≠ 0 := by omega
  simp [faultOfWord, hknown, hne, hlo]

theorem faultOfWord_of_opcode_immediate (hlo : 1 ≤ (unpack w).opcode.toNat) (hhi : (unpack w).opcode.toNat ≤ 2) :
    faultOfWord w s = none := by
  have hknown : ¬ 7 ≤ (unpack w).opcode.toNat := by omega
  have hne : (unpack w).opcode.toNat ≠ 0 := by omega
  have hfree : ¬ 3 ≤ (unpack w).opcode.toNat := by omega
  simp [faultOfWord, hknown, hne, hfree]

/-- Past the first two checks a word with opcode 0 can only fail the check of the shift count. -/
theorem faultOfWord_of_funct_known (hop : (unpack w).opcode.toNat = 0) (h : (unpack w).funct.toNat < 4) :
    faultOfWord w s =
      if (unpack w).funct.toNat = 2 ∧ readReg s (Reg.ofBits (unpack w).rt) < 0 then some .shiftCountNegative
      else none := by
  simp [faultOfWord, hop, h]

end Checks

/-! ### The faults of decoded instructions (R114, R115) -/

/-- The fault a decoded instruction takes by itself; `exec_by_ownFault` ties this to `exec`. -/
def ownFault (s : State) : Instr → Option Cause
  | .add _ _ _ => none
  | .sub _ _ _ => none
  | .sll _ rt _ => if readReg s rt < 0 then some .shiftCountNegative else none
  | .bth _ _ _ => none
  | .lui _ _ _ => none
  | .ori _ _ _ => none
  | .lw _ _ _ => some .reservedOpcode
  | .sw _ _ _ => some .reservedOpcode
  | .andi _ _ _ => some .reservedOpcode
  | .addi _ _ _ => some .reservedOpcode

/-- An instruction takes its own fault where it has one, and completes where it has none. -/
theorem exec_by_ownFault (i : Instr) (s : State) :
    (∃ c, ownFault s i = some c ∧ exec i s = .next (raiseFault c i s)) ∨
      (ownFault s i = none ∧ ∃ r v, exec i s = .next (writeAndAdvance r v s)) := by
  cases i with
  | sll rs rt rd =>
    by_cases hneg : readReg s rt < 0
    · exact .inl ⟨_, if_pos hneg, exec_sll_of_neg rs rd hneg⟩
    · exact .inr ⟨if_neg hneg, _, _, exec_sll_of_nonneg rs rd (not_lt.mp hneg)⟩
  | add | sub | bth | lui | ori => exact .inr ⟨rfl, _, _, rfl⟩
  | lw | sw | andi | addi => exact .inl ⟨_, rfl, rfl⟩

/-- For a word that decodes, the checks over its fields find the fault of its instruction. -/
theorem faultOfWord_of_decode_ok {w : InstrWord} {i : Instr} (h : decode w = .ok i) (s : State) :
    faultOfWord w s = ownFault s i := by
  obtain ⟨m, hop, hm, rfl⟩ | ⟨m, -, hm, rfl⟩ := Laws.decodeWith_ok_cases h
  · have hop0 : (unpack w).opcode.toNat = 0 := by rw [hop]; rfl
    have hlt : (unpack w).funct.toNat < 4 := by rw [← hm]; cases m <;> decide
    rw [faultOfWord_of_funct_known s hop0 hlt, ← hm]
    cases m <;> simp [specTables, specFn, Instr.ofR, ownFault]
  · cases m with
    | lui | ori => exact faultOfWord_of_opcode_immediate s (by rw [← hm]; decide) (by rw [← hm]; decide)
    | lw | sw | andi | addi => exact faultOfWord_of_opcode_reserved s (by rw [← hm]; decide) (by rw [← hm]; decide)

/-- For a word that does not decode, the checks over its fields find the cause of the decoder's error. -/
theorem faultOfWord_of_decode_error {w : InstrWord} {e : DecodeError} (h : decode w = .error e) (s : State) :
    faultOfWord w s = some (causeOfDecodeError e) := by
  rw [decode] at h
  obtain ⟨hop, ⟨m, -, hd⟩ | ⟨hnone, hd⟩⟩ | ⟨hop, ⟨m, -, hd⟩ | ⟨hnone, hd⟩⟩ := Laws.decodeWith_cases specTables w <;>
    rw [hd] at h <;> cases h
  · exact faultOfWord_of_funct_unknown s (by rw [hop]; rfl) ((Laws.specTables_rName_eq_none_iff _).mp hnone)
  · exact faultOfWord_of_opcode_unknown s ((Laws.specTables_iName_eq_none_iff _ hop).mp hnone)

/-! ### The outcome of an enabled step (R113, R118) -/

/-- The one outcome of an enabled step: the fault the checks find, recorded with the word fetched, or completion. -/
theorem step_by_faultOfWord {s : State} (hst : s.st = .run) (hpc : s.pc < s.progLen) :
    (∃ c, faultOfWord (s.mem.readWord s.pc) s = some c ∧ step s = .next (takeFault c (s.mem.readWord s.pc) s)) ∨
      (faultOfWord (s.mem.readWord s.pc) s = none ∧ ∃ r v, step s = .next (writeAndAdvance r v s)) := by
  rw [step_of_enabled hst hpc, runWord, fetch]
  cases hd : decode (s.mem.readWord s.pc) with
  | ok i =>
    have hword : encode i = s.mem.readWord s.pc := Laws.encodeWith_of_decodeWith hd
    rw [faultOfWord_of_decode_ok hd, ← hword]
    exact exec_by_ownFault i s
  | error e => exact .inl ⟨_, faultOfWord_of_decode_error hd s, rfl⟩

/-- Where the checks find a cause, the step takes that fault and does nothing else. -/
theorem step_faultsWith {s : State} (hst : s.st = .run) (hpc : s.pc < s.progLen) {c : Cause}
    (h : faultOfWord (s.mem.readWord s.pc) s = some c) :
    ∃ t, step s = .next t ∧ FaultsWith c (s.mem.readWord s.pc) s t := by
  obtain ⟨c', hcause, hstep⟩ | ⟨hnone, -⟩ := step_by_faultOfWord hst hpc
  · obtain rfl : c' = c := Option.some.inj (hcause.symm.trans h)
    exact ⟨_, hstep, takeFault_faultsWith s _ _⟩
  · exact absurd (hnone.symm.trans h) nofun

/-- Settles O14: the first check. -/
theorem unknownOpcodeFaults : Obligations.UnknownOpcodeFaults := by
  intro s hst hpc hop
  rw [← Laws.toNat_unpack_opcode] at hop
  exact step_faultsWith hst hpc (faultOfWord_of_opcode_unknown s hop)

/-- Settles O15: the second check. -/
theorem unknownFunctFaults : Obligations.UnknownFunctFaults := by
  intro s hst hpc hop hfunct
  rw [← Laws.toNat_unpack_opcode] at hop
  rw [← Laws.toNat_unpack_funct] at hfunct
  exact step_faultsWith hst hpc (faultOfWord_of_funct_unknown s hop hfunct)

/-- Settles O16: the third check. -/
theorem reservedOpcodeFaultsWhenReached : Obligations.ReservedOpcodeFaultsWhenReached := by
  intro s hst hpc hlo hhi
  rw [← Laws.toNat_unpack_opcode] at hlo hhi
  exact step_faultsWith hst hpc (faultOfWord_of_opcode_reserved s hlo hhi)

/-- Settles O17: the checks decide between the two ends of a step. -/
theorem faultCauseFollowsTheOrderOfChecks : Obligations.FaultCauseFollowsTheOrderOfChecks := by
  intro s hst hpc
  obtain ⟨c, hcause, hstep⟩ | ⟨hnone, r, v, hstep⟩ := step_by_faultOfWord hst hpc
  · rw [hcause]
    exact ⟨_, hstep, takeFault_faultsWith s c _⟩
  · rw [hnone]
    exact ⟨_, hstep, (writeAndAdvance_st s r v).trans hst, writeAndAdvance_pc s r v⟩

/-- No run of one step or more leaves a `FAULT` state. -/
theorem stepN_succ_ne_next_of_faulted {t : State} (ht : t.Faulted) (k : Nat) (u : State) : stepN (k + 1) t ≠ .next u := by
  intro h
  obtain ⟨v, hstep, -⟩ := stepN_succ_next h
  exact step_ne_next_of_ended (.inr ht) v hstep

/-- Settles O18: a step to a `FAULT` did not complete, so it took the fault of the word fetched. -/
theorem faultIsPreciseAndFinal : Obligations.FaultIsPreciseAndFinal := by
  intro s t cause index word h hfault
  obtain ⟨hst, hpc, -⟩ := step_next_cases h
  obtain ⟨c, -, hstep⟩ | ⟨-, r, v, hstep⟩ := step_by_faultOfWord hst hpc <;> rw [hstep] at h <;> cases h
  · rw [takeFault_st] at hfault
    cases hfault
    exact ⟨rfl, rfl, takeFault_faultsWith s _ _, stepN_succ_ne_next_of_faulted ⟨_, _, _, takeFault_st s _ _⟩⟩
  · rw [writeAndAdvance_st, hst] at hfault
    cases hfault

end Sys2Proof.Machine

/-! ## The codec (30_encoding.md section 2, R51, R52, R56) -/

namespace Sys2Proof.Laws

/-! ### Decode of encode -/

/-- Under an injective funct table the decoder reads back every R word. -/
theorem decodeWith_encodeR {T : Tables} (hfn : ∀ m n, T.fn m = T.fn n → m = n) (m : RName) (rs rt rd : Reg) :
    decodeWith T (encodeR T m rs rt rd) = .ok (Instr.ofR m rs rt rd) := by
  simp [decodeWith, encodeR, rName_fn hfn]

/-- Under an injective opcode table without opcode 0 the decoder reads back every I word, field by field. -/
theorem decodeWith_packI {T : Tables} (hopc : ∀ m n, T.opc m = T.opc n → m = n) (hzero : ∀ m, T.opc m ≠ 0#4)
    (m : IName) (rs rt : BitVec 3) (immed : BitVec 6) :
    decodeWith T (packI (T.opc m) rs rt immed) = .ok (Instr.ofI m (Reg.ofBits rs) (Reg.ofBits rt) immed.toNat) := by
  simp [decodeWith, hzero, iName_opc hopc]

/-- R50's encoder is inverted by the decoder on every instruction whose immediate fits its six bits. -/
theorem decodeWith_encodeWith {T : Tables} (hT : T.Valid) {i : Instr} (hi : i.wellFormed = true) :
    decodeWith T (encodeWith T i) = .ok i := by
  obtain ⟨hopc, hzero, hfn⟩ := hT
  obtain ⟨m, rs, rt, rd, rfl⟩ | ⟨m, rs, rt, immed, rfl⟩ := instr_shape i
  · rw [encodeWith_ofR, decodeWith_encodeR hfn]
  · have himmed : immed < 64 := of_decide_eq_true ((ofI_wellFormed m rs rt immed).symm.trans hi)
    rw [encodeWith_ofI, encodeI, decodeWith_packI hopc hzero, ofBits_bits, ofBits_bits, BitVec.toNat_ofNat,
      Nat.mod_eq_of_lt himmed]

theorem specTables_rName_fn (m : RName) : specTables.rName (specTables.fn m) = some m := by
  cases m <;> rfl

/-- The spec's numbers meet R51 and R52: each is found again under its own mnemonic, and no opcode is 0. -/
theorem specTables_valid : specTables.Valid := by
  refine ⟨fun m n h => ?_, Machine.specTables_opc_ne_zero, fun m n h => ?_⟩
  · have hfound := congrArg specTables.iName h
    rwa [Machine.specTables_iName_opc, Machine.specTables_iName_opc, Option.some_inj] at hfound
  · have hfound := congrArg specTables.rName h
    rwa [specTables_rName_fn, specTables_rName_fn, Option.some_inj] at hfound

/-- Settles O3: the two formats separately, each by the round trip of its fields and of its table's look-up. -/
theorem decodeOfEncodeUnderEveryValidTable : Obligations.DecodeOfEncodeUnderEveryValidTable :=
  ⟨specTables_valid, fun _ _ hT hi => decodeWith_encodeWith hT hi⟩

/-! ### Encode of decode -/

/-- An immediate read from a word has six bits, so no word decodes to an ill-formed instruction. -/
theorem wellFormed_of_decodeWith {T : Tables} {w : InstrWord} {i : Instr} (h : decodeWith T w = .ok i) :
    i.wellFormed = true := by
  obtain ⟨m, -, -, rfl⟩ | ⟨m, -, -, rfl⟩ := decodeWith_ok_cases h
  · exact ofR_wellFormed _ _ _ _
  · rw [ofI_wellFormed]
    exact decide_eq_true (unpack w).immed.isLt

/-- Settles O4: no field of a decoded word is dropped. -/
theorem encodeOfDecodedWordIsTheWord : Obligations.EncodeOfDecodedWordIsTheWord :=
  fun _ _ _ h => ⟨encodeWith_of_decodeWith h, wellFormed_of_decodeWith h⟩

/-! ### The partition of the words (R56) -/

theorem unpack_opcode_eq_zero_iff (w : InstrWord) : (unpack w).opcode = 0#4 ↔ w.toNat / 4096 = 0 := by
  rw [← toNat_unpack_opcode, ← BitVec.toNat_inj, BitVec.toNat_ofNat, Nat.zero_mod]

/-- Said once: the three classes of words by their numbers, with the decoder's answer on each. -/
theorem decode_partition (w : InstrWord) :
    (7 ≤ w.toNat / 4096 ∧ decode w = .error .unknownOpcode) ∨
    (w.toNat / 4096 = 0 ∧ 4 ≤ w.toNat % 8 ∧ decode w = .error .unknownFunct) ∨
    (w.toNat / 4096 ≤ 6 ∧ (w.toNat / 4096 = 0 → w.toNat % 8 < 4) ∧ ∃ i, decode w = .ok i) := by
  obtain ⟨hop, ⟨m, hm, hd⟩ | ⟨hnone, hd⟩⟩ | ⟨hop, ⟨m, hm, hd⟩ | ⟨hnone, hd⟩⟩ := decodeWith_cases specTables w
  · have hfunct := mt (specTables_rName_eq_none_iff _).mpr (by rw [hm]; nofun)
    rw [toNat_unpack_funct, not_le] at hfunct
    have hzero := (unpack_opcode_eq_zero_iff w).mp hop
    exact .inr (.inr ⟨by omega, fun _ => hfunct, _, hd⟩)
  · have hfunct := (specTables_rName_eq_none_iff _).mp hnone
    rw [toNat_unpack_funct] at hfunct
    exact .inr (.inl ⟨(unpack_opcode_eq_zero_iff w).mp hop, hfunct, hd⟩)
  · have hopcode := mt (specTables_iName_eq_none_iff _ hop).mpr (by rw [hm]; nofun)
    rw [toNat_unpack_opcode, not_le] at hopcode
    exact .inr (.inr ⟨by omega, fun hzero => absurd ((unpack_opcode_eq_zero_iff w).mpr hzero) hop, _, hd⟩)
  · have hopcode := (specTables_iName_eq_none_iff _ hop).mp hnone
    rw [toNat_unpack_opcode] at hopcode
    exact .inl ⟨hopcode, hd⟩

/-- Settles O5: the classes exclude each other, and so do the answers. -/
theorem decodeRejectsExactlyTheUnassignedWords : Obligations.DecodeRejectsExactlyTheUnassignedWords := by
  intro w
  obtain ⟨hop, hd⟩ | ⟨hop, hfunct, hd⟩ | ⟨hop, hfunct, i, hd⟩ := decode_partition w
  · simp only [hd, Except.error.injEq, reduceCtorEq, exists_false, true_iff, false_iff]
    omega
  · simp only [hd, Except.error.injEq, reduceCtorEq, exists_false, true_iff, false_iff]
    omega
  · simp only [hd, Except.ok.injEq, exists_eq', reduceCtorEq, true_iff, false_iff]
    omega

/-! ### The words of 95_test_vectors.md section 3.1 -/

/-- Settles O1: the decoder evaluated on each word. -/
theorem specVectorWordsDecode : Obligations.SpecVectorWordsDecode :=
  ⟨rfl, rfl, rfl, rfl, rfl, rfl, rfl, rfl, rfl, rfl, rfl, rfl⟩

end Sys2Proof.Laws

/-! ## The step and the observation (40_executor_dispatch.md R65, 10_state.md section 9) -/

namespace Sys2Proof.Machine

/-! ### Where a step is enabled, and what it runs -/

/-- The step of a fetched word that decodes is `exec` of its instruction. -/
theorem step_of_decode {s : State} {i : Instr} (hst : s.st = .run) (hpc : s.pc < s.progLen)
    (hd : decode (fetch s) = .ok i) : step s = exec i s := by
  rw [step_of_enabled hst hpc, runWord, hd]

/-- Settles O9: dispatch adds nothing to the decoded instruction. -/
theorem stepRunsTheDecodedInstruction : Obligations.StepRunsTheDecodedInstruction :=
  fun _ _ => step_of_decode

/-- Settles O10: no word makes an enabled step stop, and a next state comes from an enabled step alone. -/
theorem stepIsEnabledExactlyInRunBelowN : Obligations.StepIsEnabledExactlyInRunBelowN := by
  refine fun s => ⟨fun ⟨t, h⟩ => ?_, fun ⟨hst, hpc⟩ => exists_step_of_enabled hst hpc⟩
  obtain ⟨hst, hpc, -⟩ := step_next_cases h
  exact ⟨hst, hpc⟩

/-! ### Where no step is enabled -/

theorem step_of_faulted {s : State} (h : s.Faulted) : step s = .fault .halted := by
  obtain ⟨c, k, w, hst⟩ := h
  simp only [step, hst]

theorem step_of_done {s : State} (h : s.Done) : step s = .fault .programDone := by
  obtain ⟨hst, hpc⟩ := h
  simp only [step, hst, hpc, lt_irrefl, if_false, if_true]

theorem step_of_pc_beyond {s : State} (hst : s.st = .run) (hpc : s.progLen < s.pc) :
    step s = .fault .pcBeyondProgram := by
  simp only [step, hst, if_neg hpc.not_gt, if_neg hpc.ne']

/-- Settles O11: the three kinds of state without a step, one by one. -/
theorem stopsAreNamed : Obligations.StopsAreNamed :=
  fun _ => ⟨step_of_faulted, step_of_done, step_of_pc_beyond⟩

/-! ### The observation -/

theorem isDone_iff (s : State) : isDone s = true ↔ s.st = .run ∧ s.pc = s.progLen := by
  simp [isDone]

theorem isFaulted_iff (s : State) : isFaulted s = true ↔ s.Faulted := by
  unfold isFaulted State.Faulted
  cases s.st with
  | run => simp
  | fault c k w => simp

/-- Settles O19: the two derived bits decide `Done` and `FAULT`, everything else is read off. -/
theorem observationShowsTheState : Obligations.ObservationShowsTheState :=
  fun s => ⟨isDone_iff s, isFaulted_iff s, rfl, rfl, rfl⟩

end Sys2Proof.Machine

/-! ## The loaded program and the invariant (20_memory.md, 70_reset_and_hazards.md section 2, 10_state.md section 4) -/

namespace Sys2Proof.Machine

/-! ### Placing words -/

/-- Placing words from index `i` on leaves every word below `i` alone. -/
theorem readWord_writeWords_of_lt (ws : List InstrWord) : ∀ (m : Memory) {i j : Nat}, j < i →
    (m.writeWords i ws).readWord j = m.readWord j := by
  induction ws with
  | nil => exact fun _ _ _ _ => rfl
  | cons w ws ih =>
    intro m i j hj
    exact (ih _ (by omega)).trans (readWord_writeWord_of_ne m w hj.ne)

/-- In a store in canonical form, words placed from index `i` on stand there one after the other. -/
theorem readWord_writeWords (ws : List InstrWord) : ∀ {m : Memory}, m.wf = true → ∀ (i : Nat) {k : Nat}
    (hk : k < ws.length), (m.writeWords i ws).readWord (i + k) = ws[k] := by
  induction ws with
  | nil => exact fun _ _ _ hk => absurd hk (Nat.not_lt_zero _)
  | cons w ws ih =>
    intro m hm i k hk
    cases k with
    | zero => exact (readWord_writeWords_of_lt ws _ (by omega)).trans (readWord_writeWord_same hm i w)
    | succ k =>
      have hrest := ih (wf_writeWord hm i w) (i + 1) (Nat.lt_of_succ_lt_succ hk)
      rwa [Nat.add_right_comm] at hrest

theorem readWord_loadProgram (ws : List InstrWord) {k : Nat} (hk : k < ws.length) :
    (loadProgram ws).mem.readWord k = ws[k] := by
  have hword := readWord_writeWords ws (m := []) rfl 0 hk
  rwa [Nat.zero_add] at hword

/-- Settles O7: the words by the placing of words, everything else by the definition of the load. -/
theorem loadedProgramStandsInTheStore : Obligations.LoadedProgramStandsInTheStore :=
  fun ws => ⟨loadProgram_progLen ws, loadProgram_pc ws, loadProgram_st ws,
    readReg_eq_zero_of_regs_reset (loadProgram_regs ws), fun _ => readWord_loadProgram ws⟩

/-! ### The addresses a load lists -/

/-- Placing a word lists its own two addresses and none else. -/
theorem mem_writeWord {c : Host.Cell} {m : Memory} {i : Nat} {w : InstrWord} (h : c ∈ m.writeWord i w) :
    c.1 < 2 * (i + 1) ∨ c ∈ m := by
  obtain rfl | h := mem_write h
  · exact .inl (by omega)
  · obtain rfl | h := mem_write h
    · exact .inl (by omega)
    · exact .inr h

theorem mem_writeWords {c : Host.Cell} (ws : List InstrWord) : ∀ {m : Memory} {i : Nat}, c ∈ m.writeWords i ws →
    c.1 < 2 * (i + ws.length) ∨ c ∈ m := by
  induction ws with
  | nil => exact fun h => .inr h
  | cons w ws ih =>
    intro m i h
    rw [List.length_cons]
    obtain h | h := ih h
    · exact .inl (by omega)
    · exact (mem_writeWord h).imp_left fun hlt => by omega

/-- A load fills a canonical store that ends with the program. -/
theorem loadProgram_storeOk (ws : List InstrWord) : (loadProgram ws).storeOk := by
  refine ⟨wf_writeWords rfl 0 ws, fun c hc => ?_⟩
  obtain h | h := mem_writeWords ws hc
  · rwa [Nat.zero_add] at h
  · exact absurd h List.not_mem_nil

/-! ### The invariant -/

/-- In `RUN` there is no fault record to be true. -/
theorem faultRecordTrue_of_run {s : State} (h : s.st = .run) : s.faultRecordTrue := by
  simp only [State.faultRecordTrue, h]

/-- The status and the registers a fault leaves are those its record speaks of. -/
theorem faultRecordTrue_takeFault {s : State} {c : Cause} (hpc : s.pc < s.progLen)
    (h : faultOfWord (fetch s) s = some c) : (takeFault c (fetch s) s).faultRecordTrue :=
  ⟨rfl, hpc, rfl, h⟩

/-- Settles O20: the store after reset lists nothing, and the machine is in `RUN`. -/
theorem resetMeetsTheInvariant : Obligations.ResetMeetsTheInvariant :=
  ⟨⟨rfl, fun _ h => absurd h List.not_mem_nil⟩, le_rfl, faultRecordTrue_of_run rfl⟩

/-- Settles O21: both leave `pc` at 0 and `st` in `RUN`, so only the form of the store is left. -/
theorem loadAndResetEventMeetTheInvariant : Obligations.LoadAndResetEventMeetTheInvariant :=
  ⟨fun ws => ⟨loadProgram_storeOk ws, Nat.zero_le _, faultRecordTrue_of_run (loadProgram_st ws)⟩,
    fun s hs => ⟨hs, Nat.zero_le _, faultRecordTrue_of_run (resetEvent_st s)⟩⟩

/-- The form of the store is a matter of `N` and the store alone, which no step changes. -/
theorem step_storeOk {s t : State} (h : step s = .next t) (hs : s.storeOk) : t.storeOk := by
  obtain ⟨hlen, hmem⟩ := step_progLen_mem h
  rwa [State.storeOk, hlen, hmem]

/-- A step ends in `RUN` or in the fault that the order of checks finds in the word fetched. -/
theorem step_faultRecordTrue {s t : State} (h : step s = .next t) : t.faultRecordTrue := by
  obtain ⟨hst, hpc, -⟩ := step_next_cases h
  obtain ⟨c, hcause, hstep⟩ | ⟨-, r, v, hstep⟩ := step_by_faultOfWord hst hpc <;> rw [hstep] at h <;> cases h
  · exact faultRecordTrue_takeFault hpc hcause
  · exact faultRecordTrue_of_run hst

/-- Settles O22: the three parts of the invariant, of which a step needs only the form of the store from the state
before. -/
theorem stepKeepsTheInvariant : Obligations.StepKeepsTheInvariant := by
  rintro s t ⟨hstore, -, -⟩ h
  obtain ⟨-, -, hpc⟩ := pcAdvancesByOneOrStaysOnAFault s t h
  exact ⟨step_storeOk h hstore, hpc, step_faultRecordTrue h⟩

end Sys2Proof.Machine

/-! ## The R-type arithmetic on patterns (41_rtype_alu.md R74) -/

namespace Sys2Proof.Machine

@[simp] theorem get_writeAndAdvance_same (s : State) (r : Reg) (v : Int) :
    (writeAndAdvance r v s).regs.get r = uBits 12 v := by
  rw [writeAndAdvance_regs, get_set_same]

theorem uBits_readReg (s : State) (r : Reg) : uBits 12 (readReg s r) = s.regs.get r := uBits_sRead _

/-- A register's pattern depends on the wrapped value alone. -/
theorem uBits_eq_of_wrap_eq {v w : Int} (h : wrap v = wrap w) : uBits 12 v = uBits 12 w := BitVec.eq_of_toInt_eq h

theorem uBits_add (n : Nat) (v w : Int) : uBits n (v + w) = uBits n v + uBits n w := BitVec.ofInt_add v w

theorem uBits_sub (n : Nat) (v w : Int) : uBits n (v - w) = uBits n v - uBits n w := by
  rw [eq_sub_iff_add_eq, ← uBits_add, sub_add_cancel]

/-- The product with a power of two is the left shift of the pattern. -/
theorem uBits_mul_two_pow (n : Nat) (v : Int) (k : Nat) : uBits n (v * 2 ^ k) = uBits n v <<< k := by
  have hpow : BitVec.ofInt n (2 ^ k) = BitVec.twoPow n k := by
    apply BitVec.eq_of_toNat_eq
    rw [BitVec.toNat_ofInt, BitVec.toNat_twoPow]
    exact_mod_cast Int.toNat_natCast (2 ^ k % 2 ^ n)
  rw [uBits, BitVec.ofInt_mul, hpow, BitVec.mul_twoPow_eq_shiftLeft, uBits]

/-- A count that is not negative is its pattern's number. -/
theorem toNat_readReg_of_nonneg {s : State} {r : Reg} (h : 0 ≤ readReg s r) :
    (readReg s r).toNat = (s.regs.get r).toNat :=
  BitVec.toNat_toInt_of_sle (BitVec.sle_iff_toInt_le.mpr h)

theorem uBits_shiftLeftWrap (v : Int) (n : Nat) : uBits 12 (shiftLeftWrap v n) = uBits 12 v <<< n := by
  rw [uBits_eq_of_wrap_eq (wrap_shiftLeftWrap v n), uBits_mul_two_pow]

/-- Settles O32: taking the 12-bit pattern commutes with the sum, the difference and the product with a power of two. -/
theorem arithmeticIsTwosComplementOnPatterns : Obligations.ArithmeticIsTwosComplementOnPatterns := by
  refine fun s rs rt rd => ⟨⟨_, exec_add rs rt rd s, ?_⟩, ⟨_, exec_sub rs rt rd s, ?_⟩,
    fun hcount => ⟨_, exec_sll_of_nonneg rs rd hcount, ?_⟩⟩
  · rw [get_writeAndAdvance_same, uBits_add, uBits_readReg, uBits_readReg]
  · rw [get_writeAndAdvance_same, uBits_sub, uBits_readReg, uBits_readReg]
  · rw [get_writeAndAdvance_same, uBits_shiftLeftWrap, uBits_readReg, toNat_readReg_of_nonneg hcount]

end Sys2Proof.Machine

/-! ## The ignored field `rs` of `lui` and `ori` words (30_encoding.md R55) -/

namespace Sys2Proof.Machine

/-- The decoder of the machine reads back every I word, field by field. -/
theorem decode_packI (m : IName) (rs rt : BitVec 3) (immed : BitVec 6) :
    decode (packI (specTables.opc m) rs rt immed) =
      .ok (Instr.ofI m (Reg.ofBits rs) (Reg.ofBits rt) immed.toNat) :=
  Laws.decodeWith_packI Laws.specTables_valid.1 specTables_opc_ne_zero m rs rt immed

/-- A step over a word placed at `pc` runs that word's instruction. -/
theorem step_placeFetchWord {s : State} (hs : s.mem.wf = true) {w : InstrWord} {i : Instr} (hd : decode w = .ok i) :
    step (placeFetchWord w s) = exec i (placeFetchWord w s) := by
  have hfetch : fetch (placeFetchWord w s) = w := readWord_writeWord_same hs s.pc w
  exact step_of_decode (placeFetchWord_st s w) ((Nat.lt_succ_self s.pc).trans_le (le_max_right _ _))
    (by rw [hfetch, hd])

@[simp] theorem readReg_placeFetchWord (s : State) (w : InstrWord) (r : Reg) :
    readReg (placeFetchWord w s) r = readReg s r := rfl

/-- The value a `lui` or an `ori` writes, from the old value of its register. -/
def immedResult (m : IName) (x : Int) (immed : Nat) : Int := if m = .lui then immed else orInt x immed

/-- `lui` and `ori` end without a look at `rs`. -/
theorem exec_ofI_immedResult {m : IName} (hm : m = .lui ∨ m = .ori) (rs rt : Reg) (immed : Nat) (s : State) :
    exec (Instr.ofI m rs rt immed) s = .next (writeAndAdvance rt (immedResult m (readReg s rt) immed) s) := by
  obtain rfl | rfl := hm
  · exact exec_lui rs rt immed s
  · exact exec_ori rs rt immed s

/-- Settles O33: of the word placed, the registers, `pc` and `st` of the next state keep only `rt` and the immediate. -/
theorem rsOfLuiAndOriWordsIsIgnored : Obligations.RsOfLuiAndOriWordsIsIgnored := by
  intro s opcode rs rs' rt immed hs hop
  obtain ⟨m, hm, rfl⟩ : ∃ m, (m = .lui ∨ m = .ori) ∧ opcode = specTables.opc m := by
    obtain rfl | rfl := hop
    · exact ⟨.lui, .inl rfl, rfl⟩
    · exact ⟨.ori, .inr rfl, rfl⟩
  have hstep : ∀ rs, step (placeFetchWord (packI (specTables.opc m) rs rt immed) s) = _ := fun rs =>
    (step_placeFetchWord hs (decode_packI m rs rt immed)).trans (exec_ofI_immedResult hm _ _ _ _)
  exact ⟨_, _, hstep rs, hstep rs', rfl, rfl, rfl, rfl⟩

end Sys2Proof.Machine

/-! ## The Booth multiplier: overflow and the exact domain (43_booth_multiplier.md R101, R102, R105) -/

namespace Sys2Proof.Machine

/-! ### The product is the closed form exactly without overflow (R101, R105) -/

theorem exactAddend_range (a b c : BitVec 6) (i : Int) :
    -8192 ≤ exactAddend a b c i ∧ exactAddend a b c i ≤ 8192 := by
  have hb : -32 ≤ sRead b ∧ sRead b ≤ 31 := toInt_range6 b
  have hc : -32 ≤ sRead c ∧ sRead c ≤ 31 := toInt_range6 c
  have hd := boothDigit_range a i
  rw [exactAddend, mul_assoc]
  split
  · have := mul_between (boothDigit a i) hc.1 hc.2
    omega
  · have := mul_between (boothDigit a i) hb.1 hb.2
    omega

/-- A sum within three times the accumulator's range loses at most one `2^13` to the truncation, and none exactly when it
fits. -/
theorem exists_wrapped13_eq {S : Int} (hlo : -12288 ≤ S) (hhi : S ≤ 12287) :
    ∃ k : Int, -1 ≤ k ∧ k ≤ 1 ∧ wrapped13 S = S - 8192 * k ∧ (fits13 S ↔ k = 0) := by
  refine ⟨(S + 4096) / 8192, ?_⟩
  unfold wrapped13 fits13
  omega

/-- The three truncations lose `k₁`, `k₂`, `k₃` times `2^13`, of which the result loses `64 * (k₁ + 4 * k₂ + 16 * k₃)`.
As no `k` exceeds 1 in size these cannot cancel: the result is exact only where the first is 0, then the second, then the
third. -/
theorem fits13_of_wrapped13_run_eq {S e₂ e₃ : Int} (hS : -12288 ≤ S ∧ S ≤ 12287) (he₂ : -8192 ≤ e₂ ∧ e₂ ≤ 8192)
    (he₃ : -8192 ≤ e₃ ∧ e₃ ≤ 8192)
    (h : wrapped13 (wrapped13 (wrapped13 S / 4 + e₂) / 4 + e₃) / 4 / 2 = ((S / 4 + e₂) / 4 + e₃) / 8) :
    fits13 S ∧ fits13 (S / 4 + e₂) ∧ fits13 ((S / 4 + e₂) / 4 + e₃) := by
  have hr₁ : -4096 ≤ wrapped13 S ∧ wrapped13 S ≤ 4095 := wrapped13_range S
  have hr₂ : -4096 ≤ wrapped13 (wrapped13 S / 4 + e₂) ∧ wrapped13 (wrapped13 S / 4 + e₂) ≤ 4095 := wrapped13_range _
  obtain ⟨k₁, hlo₁, hhi₁, hw₁, hk₁⟩ := exists_wrapped13_eq hS.1 hS.2
  obtain ⟨k₂, hlo₂, hhi₂, hw₂, hk₂⟩ := exists_wrapped13_eq (S := wrapped13 S / 4 + e₂) (by omega) (by omega)
  obtain ⟨k₃, hlo₃, hhi₃, hw₃, hk₃⟩ :=
    exists_wrapped13_eq (S := wrapped13 (wrapped13 S / 4 + e₂) / 4 + e₃) (by omega) (by omega)
  have hlost : k₁ + 4 * k₂ + 16 * k₃ = 0 := by omega
  obtain ⟨rfl, rfl, rfl⟩ : k₁ = 0 ∧ k₂ = 0 ∧ k₃ = 0 := by omega
  unfold fits13 at *
  omega

theorem noOverflow_of_toInt_boothMul_eq {a b c : BitVec 6} (h : (boothMul a b c).toInt = closedForm a b c) :
    noOverflow a b c := by
  have ha : -32 ≤ sRead a ∧ sRead a ≤ 31 := toInt_range6 a
  have he₁ := exactAddend_range a b c 1
  have hS : -12288 ≤ exactS1 a b c ∧ exactS1 a b c ≤ 12287 := by
    rw [exactS1]
    omega
  rw [toInt_boothMul, toInt_boothAcc_three, ← exactS3_div_eight] at h
  exact fits13_of_wrapped13_run_eq hS (exactAddend_range a b c 2) (exactAddend_range a b c 3) h

/-- Settles O39: no truncation changes a sum that fits, and where one does the losses do not cancel. -/
theorem productIsTheClosedFormExactlyWithoutOverflow : Obligations.ProductIsTheClosedFormExactlyWithoutOverflow :=
  fun _ _ _ => ⟨noOverflow_of_toInt_boothMul_eq, toInt_boothMul_eq_closedForm⟩

/-- Settles O40: product and closed form agree modulo 64, whatever overflows. -/
theorem overflowErrorIsAMultipleOf64 : Obligations.OverflowErrorIsAMultipleOf64 :=
  fun a b c => Int.emod_eq_emod_iff_emod_sub_eq_zero.mp (toInt_boothMul_emod_closedForm a b c)

/-! ### The domain on which `bth` is exact (R102) -/

/-- With an operand that is not negative, the corners `b = 16` with digits -2 and -8 reach `-2^12` and stay inside, and
`b = -15` stays below `2^12` by more than the operand's own shifts. -/
theorem noOverflow_self_of_nonneg {a b : BitVec 6} (ha : 0 ≤ a.toInt) (hlo : -15 ≤ b.toInt) (hhi : b.toInt ≤ 16) :
    noOverflow a b b := by
  obtain ⟨hS1, hS2, hS3⟩ := exactSums_self a b
  have harange := toInt_range6 a
  have hdigits := partialDigits_range a
  have h1 := mul_between (boothDigit a 1) hlo hhi
  have h2 := mul_between (boothDigit a 1 + 4 * boothDigit a 2) hlo hhi
  have h3 := mul_between a.toInt hlo hhi
  unfold noOverflow fits13
  rw [hS1, hS2, hS3]
  omega

theorem toInt_boothMul_self_of_nonneg {a b : BitVec 6} (ha : 0 ≤ a.toInt) (h : noOverflow a b b) :
    (boothMul a b b).toInt = a.toInt * b.toInt := by
  rw [toInt_boothMul_eq_closedForm h, closedForm_self, if_neg (not_lt.mpr ha), zero_add]

/-- Neighbouring digits share a bit, so two doubled digits in a row have opposite signs. -/
theorem boothDigit_succ_of_isDouble {a : BitVec 6} {i : Int} (hi : isDouble (boothDigit a i) = true)
    (hnext : isDouble (boothDigit a (i + 1)) = true) : boothDigit a (i + 1) = -boothDigit a i := by
  have hshared : 2 * (i + 1) - 3 = 2 * i - 1 := by ring
  have h1 := qBit_range a (2 * i - 1)
  have h2 := qBit_range a (2 * i - 2)
  have h3 := qBit_range a (2 * i - 3)
  have h4 := qBit_range a (2 * (i + 1) - 2)
  have h5 := qBit_range a (2 * (i + 1) - 1)
  rw [isDouble_iff] at hi hnext
  unfold boothDigit at *
  rw [hshared] at hnext ⊢
  omega

/-- Two doubled digits in a row take opposite addends. -/
theorem exactAddend_succ_of_isDouble {a : BitVec 6} {i : Int} (b c : BitVec 6)
    (hi : isDouble (boothDigit a i) = true) (hnext : isDouble (boothDigit a (i + 1)) = true) :
    exactAddend a b c (i + 1) = -exactAddend a b c i := by
  rw [exactAddend, exactAddend, if_pos hi, if_pos hnext, boothDigit_succ_of_isDouble hi hnext]
  ring

/-- With operands in `[-13, 13]` a doubled digit's addend lies within `2 * 13 * 128`, every other one within half of
that. -/
theorem exactAddend_range_of_le_13 (a : BitVec 6) {b c : BitVec 6} (hb : -13 ≤ b.toInt ∧ b.toInt ≤ 13)
    (hc : -13 ≤ c.toInt ∧ c.toInt ≤ 13) (i : Int) :
    (-3328 ≤ exactAddend a b c i ∧ exactAddend a b c i ≤ 3328) ∧
      (¬ isDouble (boothDigit a i) = true → -1664 ≤ exactAddend a b c i ∧ exactAddend a b c i ≤ 1664) := by
  have hd := boothDigit_range a i
  have hbd := mul_between (boothDigit a i) hb.1 hb.2
  have hcd := mul_between (boothDigit a i) hc.1 hc.2
  rw [exactAddend, mul_assoc, sRead, sRead]
  by_cases hdouble : isDouble (boothDigit a i) = true
  · rw [if_pos hdouble]
    exact ⟨by omega, fun h => absurd hdouble h⟩
  · rw [if_neg hdouble]
    rw [isDouble_iff] at hdouble
    omega

/-- Of two addends in a row one is small, or they are opposite. -/
theorem exactAddend_succ_cases_of_le_13 (a : BitVec 6) {b c : BitVec 6} (hb : -13 ≤ b.toInt ∧ b.toInt ≤ 13)
    (hc : -13 ≤ c.toInt ∧ c.toInt ≤ 13) (i : Int) :
    (-1664 ≤ exactAddend a b c i ∧ exactAddend a b c i ≤ 1664) ∨
      (-1664 ≤ exactAddend a b c (i + 1) ∧ exactAddend a b c (i + 1) ≤ 1664) ∨
      exactAddend a b c (i + 1) = -exactAddend a b c i := by
  by_cases hi : isDouble (boothDigit a i) = true
  · by_cases hnext : isDouble (boothDigit a (i + 1)) = true
    · exact .inr (.inr (exactAddend_succ_of_isDouble b c hi hnext))
    · exact .inr (.inl ((exactAddend_range_of_le_13 a hb hc (i + 1)).2 hnext))
  · exact .inl ((exactAddend_range_of_le_13 a hb hc i).2 hi)

/-- A large addend follows a small one or its own negative, so the quarter of the sum before it leaves room for it. -/
theorem noOverflow_of_le_13 (a : BitVec 6) {b c : BitVec 6} (hb : -13 ≤ b.toInt ∧ b.toInt ≤ 13)
    (hc : -13 ≤ c.toInt ∧ c.toInt ≤ 13) : noOverflow a b c := by
  have ha : -32 ≤ sRead a ∧ sRead a ≤ 31 := toInt_range6 a
  obtain ⟨hrange₁, -⟩ := exactAddend_range_of_le_13 a hb hc 1
  obtain ⟨hrange₂, -⟩ := exactAddend_range_of_le_13 a hb hc 2
  obtain ⟨hrange₃, -⟩ := exactAddend_range_of_le_13 a hb hc 3
  have h₁₂ := exactAddend_succ_cases_of_le_13 a hb hc 1
  have h₂₃ := exactAddend_succ_cases_of_le_13 a hb hc 2
  rw [one_add_one_eq_two] at h₁₂
  rw [two_add_one_eq_three] at h₂₃
  unfold noOverflow fits13 exactS3 exactS2 exactS1
  omega

/-- Settles O41: with a matching side operand `bth` writes the product of the two operands, and (ii) is
`noOverflow_of_le_13`. -/
theorem bthIsExactOnItsGuaranteedDomain : Obligations.BthIsExactOnItsGuaranteedDomain := by
  refine ⟨fun s rs rt rd hrsLo hrsHi hrtLo hrtHi hr3 => ⟨_, exec_bth rs rt rd s, ?_⟩,
    fun a b c hblo hbhi hclo hchi => noOverflow_of_le_13 a ⟨hblo, hbhi⟩ ⟨hclo, hchi⟩⟩
  have hrs := toInt_low6_of_inRange (v := readReg s rs) (by omega) hrsHi
  have hrt := toInt_low6_of_inRange (v := readReg s rt) (by omega) (by omega)
  have hno : noOverflow (low6 (readReg s rs)) (low6 (readReg s rt)) (low6 (readReg s rt)) :=
    noOverflow_self_of_nonneg (by omega) (by omega) (by omega)
  have hproduct := toInt_boothMul_self_of_nonneg (by omega) hno
  rw [hrs, hrt] at hproduct
  rw [low6_eq_of_emod_eq hr3, ← hproduct]
  exact writeAndAdvance_sRead_completes s rd _

end Sys2Proof.Machine

/-! ## Statements, `li` and programs of the assembler (30_encoding.md R59 to R62) -/

namespace Sys2Proof.Machine

/-! ### One statement (R59 to R61) -/

/-- Settles O45: the halves are quotient and remainder by 64. -/
theorem liExpandsToItsTwoHalves : Obligations.LiExpandsToItsTwoHalves := by
  refine fun rt v => ⟨fun hlo hhi => ?_, fun hlo => ?_, fun hhi => ?_⟩
  · lift v to Nat using hlo
    have hwords := wordsOfStmt_li rt (v := v) (by omega)
    exact ⟨v / 64, v % 64, by omega, by omega, by omega, hwords⟩
  · simp only [wordsOfStmt, violated_below hlo]
  · simp only [wordsOfStmt, violated_above (show 0 ≤ v by omega) hhi]

/-- An R-type statement is the word of its instruction. -/
theorem wordsOfStmt_rType (m : RName) (rd rs rt : Reg) :
    wordsOfStmt (.rType m rd rs rt) = .ok [encodeR specTables m rs rt rd] := rfl

/-- An I-type statement in range is one word, with `rs` = 0 and the immediate's low six bits. -/
theorem wordsOfStmt_iType (m : IName) (rt : Reg) {v : Int} (hlo : -32 ≤ v) (hhi : v ≤ 31) :
    wordsOfStmt (.iType m rt v) = .ok [packI (specTables.opc m) 0#3 rt.bits (uBits 6 v)] := by
  simp only [wordsOfStmt, (violated_none_iff _ _ _).mpr ⟨hlo, hhi⟩]

theorem decode_encodeR (m : RName) (rs rt rd : Reg) :
    decode (encodeR specTables m rs rt rd) = .ok (Instr.ofR m rs rt rd) :=
  Laws.decodeWith_encodeR Laws.specTables_valid.2.2 m rs rt rd

/-- Settles O47: each statement in range is one word the decoder reads back, the others violate a bound. -/
theorem statementsAssembleToTheirInstruction : Obligations.StatementsAssembleToTheirInstruction := by
  refine ⟨fun m rd rs rt => ⟨_, wordsOfStmt_rType m rd rs rt, decode_encodeR m rs rt rd⟩,
    fun m rt v => ⟨fun hlo hhi => ⟨_, wordsOfStmt_iType m rt hlo hhi, ?_⟩, fun hlo => ?_, fun hhi => ?_⟩⟩
  · have himmed : (uBits 6 v).toNat = (v % 64).toNat := BitVec.toNat_ofInt v
    rw [decode_packI, ofBits_bits, himmed]
    rfl
  · simp only [wordsOfStmt, violated_below hlo]
  · simp only [wordsOfStmt, violated_above (show -32 ≤ v by omega) hhi]

/-! ### The first bad line (R62) -/

/-- Assembling fails on the first line, or the first line has words and the rest fails. -/
theorem assembleFrom_cons_error {n : Nat} {raw : List Char} {rest : List (List Char)} {e : AsmError} :
    assembleFrom n (raw :: rest) = .error e ↔
      assembleLine n raw = .error e ∨ (∃ ws, assembleLine n raw = .ok ws) ∧ assembleFrom (n + 1) rest = .error e := by
  simp only [assembleFrom]
  cases assembleLine n raw with
  | error e' => simp
  | ok ws =>
    cases assembleFrom (n + 1) rest with
    | error e' => simp
    | ok more => simp

/-- Line `k` of lines numbered from `n` is bad with error `e`, and every line before it has words. -/
def FirstBad (n : Nat) (lines : List (List Char)) (e : AsmError) (k : Nat) : Prop :=
  ∃ h : k < lines.length, assembleLine (n + k) lines[k] = .error e ∧
    ∀ (j : Nat) (hj : j < k), ∃ ws, assembleLine (n + j) (lines[j]'(Nat.lt_trans hj h)) = .ok ws

theorem firstBad_zero {n : Nat} {raw : List Char} {rest : List (List Char)} {e : AsmError} :
    FirstBad n (raw :: rest) e 0 ↔ assembleLine n raw = .error e := by
  simp [FirstBad]

/-- The first bad line lies past the first line when that one has words and the rest has its first bad line there. -/
theorem firstBad_succ {n k : Nat} {raw : List Char} {rest : List (List Char)} {e : AsmError} :
    FirstBad n (raw :: rest) e (k + 1) ↔ (∃ ws, assembleLine n raw = .ok ws) ∧ FirstBad (n + 1) rest e k := by
  have hnum : ∀ j, n + 1 + j = n + (j + 1) := fun j => by omega
  simp only [FirstBad, hnum]
  constructor
  · rintro ⟨h, hbad, hgood⟩
    exact ⟨hgood 0 (Nat.succ_pos k), Nat.lt_of_succ_lt_succ h, hbad, fun j hj => hgood (j + 1) (Nat.succ_lt_succ hj)⟩
  · rintro ⟨hfirst, h, hbad, hgood⟩
    refine ⟨Nat.succ_lt_succ h, hbad, fun j hj => ?_⟩
    cases j with
    | zero => exact hfirst
    | succ j => exact hgood j (Nat.lt_of_succ_lt_succ hj)

theorem assembleFrom_error_iff {e : AsmError} : ∀ (lines : List (List Char)) (n : Nat),
    assembleFrom n lines = .error e ↔ ∃ k, FirstBad n lines e k
  | [], n => by simp [assembleFrom, FirstBad]
  | raw :: rest, n => by
    rw [assembleFrom_cons_error, assembleFrom_error_iff rest (n + 1),
      ← Nat.or_exists_add_one (p := FirstBad n (raw :: rest) e), firstBad_zero]
    simp only [firstBad_succ, exists_and_left]

/-- Settles O48: the lines are assembled in order, so the error is that of the first bad one. -/
theorem assemblyReportsTheFirstBadLine : Obligations.AssemblyReportsTheFirstBadLine := by
  intro lines e
  simp only [assemble, assembleFrom_error_iff, FirstBad, Nat.add_comm 1]

end Sys2Proof.Machine

/-! ## Decodable programs (30_encoding.md R56, 60_exceptions.md R111, R112) -/

namespace Sys2Proof.Machine

/-! ### Every word of an assembled program decodes -/

/-- Every word of a statement is an R word or an I word with a number of the tables. -/
theorem decodes_of_mem_wordsOfStmt {stmt : Stmt} {ws : List InstrWord} (h : wordsOfStmt stmt = .ok ws) :
    ∀ w ∈ ws, ∃ i, decode w = .ok i := by
  cases stmt with
  | rType m rd rs rt =>
    cases h
    exact List.forall_mem_singleton.mpr ⟨_, decode_encodeR m rs rt rd⟩
  | iType m rt v =>
    simp only [wordsOfStmt] at h
    split at h <;> cases h
    exact List.forall_mem_singleton.mpr ⟨_, decode_packI m _ _ _⟩
  | li rt v =>
    simp only [wordsOfStmt] at h
    split at h <;> cases h
    exact List.forall_mem_cons.mpr ⟨⟨_, decode_packI .lui _ _ _⟩,
      List.forall_mem_singleton.mpr ⟨_, decode_packI .ori _ _ _⟩⟩

/-- The words of a line that assembles are none, or those of its statement. -/
theorem assembleLine_ok_cases {n : Nat} {raw : List Char} {ws : List InstrWord} (h : assembleLine n raw = .ok ws) :
    ws = [] ∨ ∃ stmt, wordsOfStmt stmt = .ok ws := by
  cases htokens : tokens raw with
  | nil =>
    simp only [assembleLine, htokens] at h
    cases h
    exact .inl rfl
  | cons t ts =>
    cases hstmt : stmtOfTokens (t :: ts) with
    | none => simp only [assembleLine, htokens, hstmt, reduceCtorEq] at h
    | some stmt =>
      cases hwords : wordsOfStmt stmt with
      | error b => simp only [assembleLine, htokens, hstmt, hwords, reduceCtorEq] at h
      | ok ws' =>
        simp only [assembleLine, htokens, hstmt, hwords] at h
        cases h
        exact .inr ⟨stmt, hwords⟩

theorem decodes_of_mem_assembleFrom : ∀ (lines : List (List Char)) {n : Nat} {ws : List InstrWord},
    assembleFrom n lines = .ok ws → ∀ w ∈ ws, ∃ i, decode w = .ok i
  | [], n, ws, h => by
    cases h
    exact List.forall_mem_nil _
  | raw :: rest, n, ws, h => by
    obtain ⟨w₁, w₂, hline, hrest, rfl⟩ := assembleFrom_cons_ok.mp h
    refine List.forall_mem_append.mpr ⟨?_, decodes_of_mem_assembleFrom rest hrest⟩
    obtain rfl | ⟨stmt, hstmt⟩ := assembleLine_ok_cases hline
    · exact List.forall_mem_nil _
    · exact decodes_of_mem_wordsOfStmt hstmt

/-! ### Where decodable programs come from -/

/-- In `RUN` no decode fault has happened, so a program is decodable when its words are. -/
theorem programDecodes_of_run {s : State} (hst : s.st = .run)
    (h : ∀ k, k < s.progLen → ∃ i, decode (s.mem.readWord k) = .ok i) : s.ProgramDecodes :=
  ⟨h, fun _ _ => by simp [hst]⟩

/-- A load of decodable words is a decodable program, whatever the registers then hold. -/
theorem programDecodes_load {ws : List InstrWord} (h : ∀ w ∈ ws, ∃ i, decode w = .ok i) (regs : RegFile) :
    ({ loadProgram ws with regs := regs } : State).ProgramDecodes := by
  refine programDecodes_of_run rfl fun k hk => ?_
  have hword := readWord_loadProgram ws (k := k) hk
  exact hword ▸ h _ (List.getElem_mem hk)

/-- Settles O52: after reset and after a load `st` is `RUN`, so only the words count. -/
theorem loadedAndAssembledProgramsAreDecodable : Obligations.LoadedAndAssembledProgramsAreDecodable :=
  ⟨programDecodes_of_run rfl fun _ hk => absurd hk (Nat.not_lt_zero _),
    fun _ hws => programDecodes_load hws _,
    fun lines _ h => programDecodes_load (decodes_of_mem_assembleFrom lines h) _,
    fun s h => programDecodes_of_run (resetEvent_st s) h⟩

/-! ### Steps and runs of decodable programs -/

/-- The fault an instruction takes by itself is none of the decoder's. -/
theorem ownFault_ne_decode_cause {s : State} {i : Instr} {c : Cause} (h : ownFault s i = some c) :
    c ≠ .unknownOpcode ∧ c ≠ .unknownFunct := by
  cases i with
  | sll rs rt rd =>
    obtain ⟨-, hc⟩ := Option.ite_none_right_eq_some.mp h
    cases hc
    exact ⟨nofun, nofun⟩
  | add | sub | bth | lui | ori => cases h
  | lw | sw | andi | addi => cases h; exact ⟨nofun, nofun⟩

/-- A step over a word that decodes takes no decode fault. -/
theorem step_st_ne_decode_fault {s t : State} (h : step s = .next t) {i : Instr} (hd : decode (fetch s) = .ok i)
    (index : Nat) (word : InstrWord) :
    t.st ≠ .fault .unknownOpcode index word ∧ t.st ≠ .fault .unknownFunct index word := by
  obtain ⟨hst, hpc, -⟩ := step_next_cases h
  rw [step_of_decode hst hpc hd] at h
  obtain ⟨c, hc, hexec⟩ | ⟨-, r, v, hexec⟩ := exec_by_ownFault i s <;> rw [hexec] at h <;> cases h
  · obtain ⟨hopcode, hfunct⟩ := ownFault_ne_decode_cause hc
    simp [hopcode, hfunct]
  · simp [hst]

/-- Settles O51: a step keeps `N` and the store, and the word it runs is one of those that decode. -/
theorem stepKeepsTheProgramDecodable : Obligations.StepKeepsTheProgramDecodable := by
  rintro s t ⟨hwords, -⟩ h
  obtain ⟨hlen, hmem⟩ := step_progLen_mem h
  obtain ⟨-, hpc, -⟩ := step_next_cases h
  obtain ⟨i, hd⟩ := hwords s.pc hpc
  exact ⟨by rwa [hlen, hmem], step_st_ne_decode_fault h hd⟩

/-- Settles O50: the invariant of O51 holds at the start of every run and so at its end. -/
theorem assembledProgramsNeverFailToDecode : Obligations.AssembledProgramsNeverFailToDecode := by
  intro lines ws regs k t hasm hrun
  obtain ⟨-, hst⟩ := stepN_induction (fun s t h hs => stepKeepsTheProgramDecodable s t hs h) hrun
    (programDecodes_load (decodes_of_mem_assembleFrom lines hasm) regs)
  exact hst

end Sys2Proof.Machine
